-- ==== Sys2Proof/Word.lean ====
section
/-! DEFINITION. The word types of the engine: bytes, 16-bit words, 12-bit addresses and nibbles (spec 00_scope.md R9, R11, R12). All values are unsigned. -/

namespace Sys2Proof

/-- An 8-bit value: a general register, a memory cell, a timer, the immediate `NN`. -/
abbrev Byte := BitVec 8

/-- A 16-bit value: the address register, the program counter, a return address, an instruction word. -/
abbrev Word := BitVec 16

/-- The 12-bit address field `NNN`. -/
abbrev Addr := BitVec 12

/-- A 4-bit slice of an instruction word. -/
abbrev Nibble := BitVec 4

end Sys2Proof
end

