-- ==== Sys2Proof/Config.lean ====
section
/-! DEFINITION. The engine's fixed parameters (spec 00_scope.md R9) and its one free value, the random byte (R10, R16). The parameter FONT stands in Machine/Memory.lean. -/

namespace Sys2Proof.Config

/-- `MEM_ADDR_MAX`, the last cell's address (R9). -/
abbrev memAddrMax : Nat := 0x0FFF
/-- `FONT_BASE` (R9). -/
abbrev fontBase : Nat := 0x050
/-- The last address of the font region (R9). -/
abbrev fontEnd : Nat := 0x09F
/-- `GLYPH_BYTES` (R9). -/
abbrev glyphBytes : Nat := 5
/-- `PROG_BASE` and `PC_RESET` (R9). -/
abbrev progBase : Nat := 0x200
/-- `PROG_MAX` (R9). -/
abbrev progMax : Nat := 3584
/-- `STACK_DEPTH` (R9). -/
abbrev stackDepth : Nat := 16
/-- `FB_H`, the framebuffer's rows (R9). -/
abbrev fbHeight : Nat := 32
/-- `FB_W`, the framebuffer's columns (R9). -/
abbrev fbWidth : Nat := 64
/-- `NUM_KEYS` (R9). -/
abbrev numKeys : Nat := 16

/-- `RANDOM`: the byte that the environment supplies at draw number `k` (R16, R133, decision D21).
A free value: it has no body, so a claim holds whatever the bytes are. Assumption log 3. -/
opaque random8 : Nat → Byte

end Sys2Proof.Config
end

