-- ==== Sys2Proof/Syntax.lean ====
section
/-! DEFINITION. The instructions: one constructor for each of the 34 rows of spec/opcode_table.json, in the order of 30_encoding.md R74. -/

namespace Sys2Proof

/-- A register index `X` or `Y` (10_state.md R22): `V0` .. `VF`. -/
abbrev Reg := Fin 16

/-- The canonical base opcode set (30_encoding.md R74). Fields are those of R71: `x`, `y` registers,
`nn` the 8-bit immediate, `addr` the 12-bit address, `n` the sprite height (a count, at most 15: `Instr.wellFormed`).
`shr` and `shl` keep the `Y` field that their meaning ignores (R77, R134), so that no bit of a word is lost (log 12). -/
inductive Instr where
  /-- `00E0` CLS -/
  | cls
  /-- `00EE` RET -/
  | ret
  /-- `1NNN` JP addr -/
  | jp (addr : Addr)
  /-- `2NNN` CALL addr -/
  | call (addr : Addr)
  /-- `3XNN` SE Vx, byte -/
  | seByte (x : Reg) (nn : Byte)
  /-- `4XNN` SNE Vx, byte -/
  | sneByte (x : Reg) (nn : Byte)
  /-- `5XY0` SE Vx, Vy -/
  | seReg (x y : Reg)
  /-- `6XNN` LD Vx, byte -/
  | ldByte (x : Reg) (nn : Byte)
  /-- `7XNN` ADD Vx, byte -/
  | addByte (x : Reg) (nn : Byte)
  /-- `8XY0` LD Vx, Vy -/
  | ldReg (x y : Reg)
  /-- `8XY1` OR Vx, Vy -/
  | orReg (x y : Reg)
  /-- `8XY2` AND Vx, Vy -/
  | andReg (x y : Reg)
  /-- `8XY3` XOR Vx, Vy -/
  | xorReg (x y : Reg)
  /-- `8XY4` ADD Vx, Vy -/
  | addReg (x y : Reg)
  /-- `8XY5` SUB Vx, Vy -/
  | sub (x y : Reg)
  /-- `8XY6` SHR Vx -/
  | shr (x y : Reg)
  /-- `8XY7` SUBN Vx, Vy -/
  | subn (x y : Reg)
  /-- `8XYE` SHL Vx -/
  | shl (x y : Reg)
  /-- `9XY0` SNE Vx, Vy -/
  | sneReg (x y : Reg)
  /-- `ANNN` LD I, addr -/
  | ldI (addr : Addr)
  /-- `BNNN` JP V0, addr -/
  | jpV0 (addr : Addr)
  /-- `CXNN` RND Vx, byte -/
  | rnd (x : Reg) (nn : Byte)
  /-- `DXYN` DRW Vx, Vy, n -/
  | drw (x y : Reg) (n : Nat)
  /-- `EX9E` SKP Vx -/
  | skp (x : Reg)
  /-- `EXA1` SKNP Vx -/
  | sknp (x : Reg)
  /-- `FX07` LD Vx, DT -/
  | ldVxDT (x : Reg)
  /-- `FX0A` LD Vx, K -/
  | ldVxK (x : Reg)
  /-- `FX15` LD DT, Vx -/
  | ldDTVx (x : Reg)
  /-- `FX18` LD ST, Vx -/
  | ldSTVx (x : Reg)
  /-- `FX1E` ADD I, Vx -/
  | addI (x : Reg)
  /-- `FX29` LD F, Vx -/
  | ldF (x : Reg)
  /-- `FX33` LD B, Vx -/
  | ldB (x : Reg)
  /-- `FX55` LD [I], Vx -/
  | dumpRegs (x : Reg)
  /-- `FX65` LD Vx, [I] -/
  | loadRegs (x : Reg)
deriving DecidableEq, Repr

end Sys2Proof
end

