-- ==== Sys2Proof/Machine/State.lean ====
section
/-! DEFINITION. The engine's state as plain data (10_state.md R20), its error reports (60_exceptions.md R200) and the state after construction (R39, 70_reset_and_hazards.md R241). -/

namespace Sys2Proof.Machine

/-- The memory array (20_memory.md R50): the cells that differ from the reset contents, addresses strictly rising. -/
abbrev Memory := List Host.Cell

/-- One row of 64 pixels, `true` = lit (10_state.md R33). -/
abbrev PixelRow := Vector Bool 64

/-- The framebuffer, row-major from the top left (10_state.md R33). -/
abbrev Framebuffer := Vector PixelRow 32

/-- Which access a report names (20_memory.md R58, 60_exceptions.md R200). -/
inductive AccessKind where
  /-- the instruction fetch -/
  | fetch
  /-- the sprite read of DRW -/
  | sprite
  /-- the store of LD B -/
  | bcd
  /-- the store of LD [I], Vx -/
  | dump
  /-- the read of LD Vx, [I] -/
  | loadRegs
  /-- the key index of SKP and SKNP -/
  | keypad
deriving DecidableEq, Repr

/-- The outcomes that the engine returns to the host (60_exceptions.md R200). -/
inductive Report where
  /-- the step or load succeeded -/
  | ok
  /-- the word decodes to no instruction (R202) -/
  | invalidOpcode (w : Word)
  /-- CALL at depth 16, with the `PC` after the fetch (R203) -/
  | stackOverflow (pc : Word)
  /-- RET at depth 0, with the `PC` after the fetch (R203) -/
  | stackUnderflow (pc : Word)
  /-- an access past 0x0FFF or a key index above 0xF: first address or index, count (R204) -/
  | addressOutOfRange (kind : AccessKind) (a n : Nat)
  /-- a store that meets the font region (R205) -/
  | fontWrite (kind : AccessKind) (a n : Nat)
  /-- `load` of no bytes (70_reset_and_hazards.md R243) -/
  | loadEmpty
  /-- `load` of more than 3584 bytes (70_reset_and_hazards.md R243) -/
  | loadTooLarge (len : Nat)
deriving DecidableEq, Repr

/-- The engine's state: the ten elements of 10_state.md R20, and two fields of the model's own. -/
structure State where
  /-- `mem[0..4095]` (R20, 20_memory.md R50) -/
  mem : Memory
  /-- `V[0..15]`, `VF` = `V[15]` (R22, R23) -/
  v : Vector Byte 16
  /-- `I`, the address register (R25) -/
  i : Word
  /-- `PC`, the program counter (R26) -/
  pc : Word
  /-- `stack[0..15]`, the return addresses (R30) -/
  stack : Vector Word 16
  /-- `SP`, the stack's depth 0..16 (R30) -/
  sp : Fin 17
  /-- `DT`, the delay timer (R32) -/
  dt : Byte
  /-- `ST`, the sound timer (R32) -/
  st : Byte
  /-- `fb[0..31][0..63]` (R33) -/
  fb : Framebuffer
  /-- `key[0..15]`, written by the host only (R34) -/
  key : Vector Bool 16
  /-- The model's own: how many random bytes have been drawn; the next is `Config.random8 draws` (log 3). -/
  draws : Nat
  /-- The model's own: the outcome of the last `step()` (40_step.md R95; log 1). -/
  report : Report
deriving DecidableEq, Repr

/-- The faults that stop the machine: none. The engine never stops by itself (40_step.md R96); an error is an
outcome beside a next state (`Report`, log 1). -/
inductive Fault where
deriving DecidableEq, Repr

/-- The refusals of the model. -/
inductive Refusal where
  /-- Raised by an arm of `exec` whose instruction has no meaning yet; none is left. Safe: the run stops. -/
  | notModelled (mnemonic : String)
deriving DecidableEq, Repr

/-- The state after construction (R39, 70_reset_and_hazards.md R241); `draws` and `report` are logs 3 and 6. -/
def State.reset : State where
  mem := []
  v := Vector.replicate 16 0
  i := 0
  pc := 0x200
  stack := Vector.replicate 16 0
  sp := 0
  dt := 0
  st := 0
  fb := Vector.replicate 32 (Vector.replicate 64 false)
  key := Vector.replicate 16 false
  draws := 0
  report := .ok

end Sys2Proof.Machine
end

