-- ==== Sys2Proof/Machine/Memory.lean ====
section
/-! DEFINITION. The memory array: the font, the reset contents, reading and writing one cell and a run of cells, and the canonical form (20_memory.md). -/

namespace Sys2Proof.Machine

/-- The parameter `FONT`: the glyphs 0x0..0xF, five bytes each, top row first (20_memory.md R55). The bytes are the
spec's default table, from general knowledge: assumption log 4. -/
def font : List Byte :=
  [0xF0, 0x90, 0x90, 0x90, 0xF0,  0x20, 0x60, 0x20, 0x20, 0x70,
   0xF0, 0x10, 0xF0, 0x80, 0xF0,  0xF0, 0x10, 0xF0, 0x10, 0xF0] ++
  [0x90, 0x90, 0xF0, 0x10, 0x10,  0xF0, 0x80, 0xF0, 0x10, 0xF0,
   0xF0, 0x80, 0xF0, 0x90, 0xF0,  0xF0, 0x10, 0x20, 0x40, 0x40] ++
  [0xF0, 0x90, 0xF0, 0x90, 0xF0,  0xF0, 0x90, 0xF0, 0x10, 0xF0,
   0xF0, 0x90, 0xF0, 0x90, 0x90,  0xE0, 0x90, 0xE0, 0x90, 0xE0] ++
  [0xF0, 0x80, 0x80, 0x80, 0xF0,  0xE0, 0x90, 0x90, 0x90, 0xE0,
   0xF0, 0x80, 0xF0, 0x80, 0xF0,  0xF0, 0x80, 0xF0, 0x80, 0x80]

/-- The address lies in the font region 0x050..0x09F (20_memory.md R53). -/
def inFont (a : Nat) : Bool := Config.fontBase ≤ a && a ≤ Config.fontEnd

/-- What a cell holds after construction and after `reset()` (10_state.md R39): the font, and 0x00 elsewhere. -/
def initialByte (a : Nat) : Byte :=
  if inFont a then font.getD (a - Config.fontBase) 0 else 0

/-- `MemRead(a, 1)` (00_scope.md R14). No rule reads a cell past 0x0FFF; log 7 says what the function gives there. -/
def Memory.read : Memory → Nat → Byte
  | [], a => initialByte a
  | (b, u) :: m, a => if b = a then u else Memory.read m a

/-- The memory without the entries of one address. -/
def Memory.erase (m : Memory) (a : Nat) : Memory := m.filter fun c => c.1 ≠ a

/-- The memory with an entry put before the first greater address. -/
def Memory.insert : Memory → Nat → Byte → Memory
  | [], a, x => [(a, x)]
  | c :: m, a, x => if a < c.1 then (a, x) :: c :: m else c :: Memory.insert m a x

/-- `MemWrite(a, 1, x)` (00_scope.md R14), keeping the canonical form. No rule writes a cell past 0x0FFF; such a
write changes nothing (log 7). -/
def Memory.write (m : Memory) (a : Nat) (x : Byte) : Memory :=
  if a ≤ Config.memAddrMax then
    if x = initialByte a then Memory.erase m a else Memory.insert (Memory.erase m a) a x
  else m

/-- Store consecutive bytes, the first at `a`. -/
def Memory.writeBytes (m : Memory) (a : Nat) : List Byte → Memory
  | [] => m
  | x :: xs => Memory.writeBytes (Memory.write m a x) (a + 1) xs

/-- The canonical form: addresses strictly rising, inside the space, no entry equal to the reset contents. -/
abbrev Memory.wf (m : Memory) : Prop :=
  m.Pairwise (fun c d => c.1 < d.1) ∧ ∀ c ∈ m, c.1 ≤ Config.memAddrMax ∧ c.2 ≠ initialByte c.1

end Sys2Proof.Machine
end

