-- ==== Sys2Proof/Machine/Ops.lean ====
section
/-! DEFINITION. The shared operations: registers, the program counter, access checks, the stack, and the one way an instruction reports an error (00_scope.md R13 to R15). -/

namespace Sys2Proof.Machine

/-- What a meaning answers. -/
abbrev StepResult := Host.Outcome State Fault Refusal

/-! ## Registers -/

/-- `V[r]` (00_scope.md R13). -/
def State.reg (s : State) (r : Reg) : Byte := s.v[r.val]

/-- `V[r] <- x` (00_scope.md R13). -/
def State.setReg (s : State) (r : Reg) (x : Byte) : State := { s with v := s.v.set r.val x }

/-- The flag register: register 0xF, an alias and no register of its own (10_state.md R23). -/
def flagReg : Reg := 15

/-- `VF` (10_state.md R23). -/
def State.vf (s : State) : Byte := s.reg flagReg

/-- A flag is exactly 0x00 or 0x01 (42_alu.md R120). -/
def flagByte (c : Bool) : Byte := if c then 1 else 0

/-- A flag write is a write of `V[15]` (10_state.md R23). -/
def State.setFlag (s : State) (c : Bool) : State := s.setReg flagReg (flagByte c)

/-! ## The program counter -/

/-- `PC <- target`. -/
def State.jump (s : State) (target : Word) : State := { s with pc := target }

/-- A skip adds exactly 2 to `PC` when its condition holds, modulo 2^16 (41_control_flow.md R100). -/
def State.skipIf (s : State) (c : Bool) : State := if c then { s with pc := s.pc + 2 } else s

/-! ## Error reports: the engine's whole exception mechanism -/

/-- `raise E(info)` (00_scope.md R15, 60_exceptions.md R201, R208): the step ends with the report, no state is saved,
no control is transferred and nothing else is changed; the next step runs from this state. There is no return from it
(R209). -/
def raise (s : State) (e : Report) : StepResult := .next { s with report := e }

/-- Run a checked operation: on an error report it and change nothing, otherwise go on with its value. -/
def attempt {α : Type} (s : State) (c : Except Report α) (k : α → StepResult) : StepResult :=
  match c with
  | .error e => raise s e
  | .ok a => k a

/-! ## Access checks (20_memory.md R57, R58) -/

/-- `CheckRead(a, n, kind)`, for `n ≥ 1`, on unbounded naturals. -/
def checkRead (kind : AccessKind) (a n : Nat) : Except Report Unit :=
  if a + n - 1 > Config.memAddrMax then .error (.addressOutOfRange kind a n) else .ok ()

/-- `CheckWrite(a, n, kind)`, for `n ≥ 1`: the range test first, then the font test. -/
def checkWrite (kind : AccessKind) (a n : Nat) : Except Report Unit :=
  if a + n - 1 > Config.memAddrMax then .error (.addressOutOfRange kind a n)
  else if a ≤ Config.fontEnd ∧ a + n - 1 ≥ Config.fontBase then .error (.fontWrite kind a n)
  else .ok ()

/-! ## The call stack (10_state.md R31) -/

/-- `Push(x)`. -/
def State.push (s : State) (x : Word) : Except Report State :=
  if h : s.sp.val < 16 then
    .ok { s with stack := s.stack.set s.sp.val x, sp := ⟨s.sp.val + 1, by omega⟩ }
  else .error (.stackOverflow s.pc)

/-- `Pop()`: the popped value and the state after; the slot keeps its value. -/
def State.pop (s : State) : Except Report (Word × State) :=
  if h : 0 < s.sp.val then
    .ok (s.stack[s.sp.val - 1], { s with sp := ⟨s.sp.val - 1, by omega⟩ })
  else .error (.stackUnderflow s.pc)

end Sys2Proof.Machine
end

