-- ==== Sys2Proof/Machine/Operands.lean ====
section
/-! DEFINITION. The operand forms: widened fields, the address through `I`, the register range, the key index and the keypad scan (30_encoding.md R73, 43_memory_transfer.md R150, 45_input_timers.md). -/

namespace Sys2Proof.Machine

/-- `zext_16(NNN)` (30_encoding.md R73). -/
def addrWord (a : Addr) : Word := a.setWidth 16

/-- `zext_16` of an 8-bit value (00_scope.md R12). -/
def byteWord (b : Byte) : Word := b.setWidth 16

/-- The effective address of byte 0 of an access through `I`; byte `k` is at this plus `k`, without truncation
(43_memory_transfer.md R150). -/
def State.ea (s : State) : Nat := s.i.toNat

/-- The target of `JP V0, addr`: not masked to 12 bits (41_control_flow.md R109, decision D7). -/
def State.offsetTarget (s : State) (a : Addr) : Word := addrWord a + byteWord (s.reg 0)

/-- Where glyph `b` starts, the value not masked to 4 bits (43_memory_transfer.md R153, decision D11). -/
def glyphAddr (b : Byte) : Word := BitVec.ofNat 16 (Config.fontBase + Config.glyphBytes * b.toNat)

/-- The values of `V0..VX`, in order (30_encoding.md R73). -/
def State.regRange (s : State) (x : Reg) : List Byte := s.v.toList.take (x.val + 1)

/-- The register that holds byte `k` of a register range. -/
def regAt (k : Nat) : Reg := Fin.ofNat 16 k

/-- `V[k] <- MemRead(a + k, 1)` for `k` in `0 .. x` (43_memory_transfer.md R156). -/
def State.loadRange (s : State) (a : Nat) (x : Reg) : State :=
  (List.range (x.val + 1)).foldl (fun t k => t.setReg (regAt k) (s.mem.read (a + k))) s

/-- The hundreds, tens and units of a byte (43_memory_transfer.md R154). -/
def bcdDigits (b : Byte) : List Byte :=
  [BitVec.ofNat 8 (b.toNat / 100), BitVec.ofNat 8 (b.toNat / 10 % 10), BitVec.ofNat 8 (b.toNat % 10)]

/-- `CheckKey(k)` (45_input_timers.md R186, decision D10): the keypad slot of a register value. -/
def checkKey (b : Byte) : Except Report (Fin 16) :=
  if h : b.toNat < 16 then .ok ⟨b.toNat, h⟩ else .error (.addressOutOfRange .keypad b.toNat 1)

/-- The first pressed key in index order (45_input_timers.md R182). -/
def firstPressed (key : Vector Bool 16) : Option Nat := key.toList.findIdx? id

end Sys2Proof.Machine
end

