-- ==== Sys2Proof/Machine/Flags.lean ====
section
/-! DEFINITION. The results and flags of the 8-bit ALU (42_alu.md R120) and the order of its two writes (R121). -/

namespace Sys2Proof.Machine

/-- Carry of an addition: the unsigned sum exceeds 255 (R120, R128). -/
def carry (a b : Byte) : Bool := a.toNat + b.toNat > 255

/-- Not-borrow of `a - b`: the minuend is at least the subtrahend (R120, R129). -/
def notBorrow (a b : Byte) : Bool := a.toNat ≥ b.toNat

/-- The bit that a right shift moves out (R130). -/
def lowBit (a : Byte) : Bool := a.toNat % 2 = 1

/-- The bit that a left shift moves out (R132). -/
def highBit (a : Byte) : Bool := a.toNat / 128 = 1

/-- `a div 2` (R130). -/
def shiftedRight (a : Byte) : Byte := BitVec.ofNat 8 (a.toNat / 2)

/-- `(a * 2) mod 256` (R132). -/
def shiftedLeft (a : Byte) : Byte := BitVec.ofNat 8 (a.toNat * 2)

/-- The result goes to `V[X]`, then the flag to `VF` (R121, decision D8). -/
def State.setResultFlag (s : State) (x : Reg) (r : Byte) (f : Bool) : State := (s.setReg x r).setFlag f

end Sys2Proof.Machine
end

