-- ==== Sys2Proof/Machine/Alu.lean ====
section
/-! DEFINITION. Register loads and the 8-bit ALU (42_alu.md). Operands are read before anything is written (R121). -/

namespace Sys2Proof.Machine

/-- `LD Vx, byte` (R122). -/
def execLdByte (x : Reg) (nn : Byte) (s : State) : StepResult := .next (s.setReg x nn)

/-- `ADD Vx, byte` (R123): no flag. -/
def execAddByte (x : Reg) (nn : Byte) (s : State) : StepResult := .next (s.setReg x (s.reg x + nn))

/-- `LD Vx, Vy` (R124). -/
def execLdReg (x y : Reg) (s : State) : StepResult := .next (s.setReg x (s.reg y))

/-- `OR Vx, Vy` (R125): the flag register is untouched. -/
def execOr (x y : Reg) (s : State) : StepResult := .next (s.setReg x (s.reg x ||| s.reg y))

/-- `AND Vx, Vy` (R126). -/
def execAnd (x y : Reg) (s : State) : StepResult := .next (s.setReg x (s.reg x &&& s.reg y))

/-- `XOR Vx, Vy` (R127). -/
def execXor (x y : Reg) (s : State) : StepResult := .next (s.setReg x (s.reg x ^^^ s.reg y))

/-- `ADD Vx, Vy` (R128): `VF` = carry. -/
def execAddReg (x y : Reg) (s : State) : StepResult :=
  .next (s.setResultFlag x (s.reg x + s.reg y) (carry (s.reg x) (s.reg y)))

/-- `SUB Vx, Vy` (R129): `VF` = not-borrow of `Vx - Vy`. -/
def execSub (x y : Reg) (s : State) : StepResult :=
  .next (s.setResultFlag x (s.reg x - s.reg y) (notBorrow (s.reg x) (s.reg y)))

/-- `SHR Vx` (R130): `Y` is ignored (R134). -/
def execShr (x _y : Reg) (s : State) : StepResult :=
  .next (s.setResultFlag x (shiftedRight (s.reg x)) (lowBit (s.reg x)))

/-- `SUBN Vx, Vy` (R131): `VF` = not-borrow of `Vy - Vx`. -/
def execSubn (x y : Reg) (s : State) : StepResult :=
  .next (s.setResultFlag x (s.reg y - s.reg x) (notBorrow (s.reg y) (s.reg x)))

/-- `SHL Vx` (R132): `Y` is ignored (R134). -/
def execShl (x _y : Reg) (s : State) : StepResult :=
  .next (s.setResultFlag x (shiftedLeft (s.reg x)) (highBit (s.reg x)))

/-- `Random8()` (00_scope.md R16): the next free byte, and the state that has drawn it. -/
def State.drawByte (s : State) : Byte × State :=
  (Config.random8 s.draws, { s with draws := s.draws + 1 })

/-- `RND Vx, byte` (R133): one fresh byte, masked with `NN`. -/
def execRnd (x : Reg) (nn : Byte) (s : State) : StepResult :=
  .next (s.drawByte.2.setReg x (s.drawByte.1 &&& nn))

end Sys2Proof.Machine
end

