-- ==== Sys2Proof/Machine/Control.lean ====
section
/-! DEFINITION. Control flow (41_control_flow.md). Each meaning runs after the fetch: `PC` is already the address of the next instruction (R100). -/

namespace Sys2Proof.Machine

/-- `RET` (R101): `PC <- Pop()`. -/
def execRet (s : State) : StepResult :=
  attempt s s.pop fun p => .next (p.2.jump p.1)

/-- `JP addr` (R102). -/
def execJp (a : Addr) (s : State) : StepResult := .next (s.jump (addrWord a))

/-- `CALL addr` (R103): `Push(PC)`, then `PC <- NNN`. -/
def execCall (a : Addr) (s : State) : StepResult :=
  attempt s (s.push s.pc) fun t => .next (t.jump (addrWord a))

/-- `SE Vx, byte` (R104). -/
def execSeByte (x : Reg) (nn : Byte) (s : State) : StepResult := .next (s.skipIf (s.reg x == nn))

/-- `SNE Vx, byte` (R105). -/
def execSneByte (x : Reg) (nn : Byte) (s : State) : StepResult := .next (s.skipIf (s.reg x != nn))

/-- `SE Vx, Vy` (R106). -/
def execSeReg (x y : Reg) (s : State) : StepResult := .next (s.skipIf (s.reg x == s.reg y))

/-- `SNE Vx, Vy` (R107). -/
def execSneReg (x y : Reg) (s : State) : StepResult := .next (s.skipIf (s.reg x != s.reg y))

/-- `JP V0, addr` (R109). -/
def execJpV0 (a : Addr) (s : State) : StepResult := .next (s.jump (s.offsetTarget a))

end Sys2Proof.Machine
end

