-- ==== Sys2Proof/Machine/Display.lean ====
section
/-! DEFINITION. The framebuffer instructions (44_display.md): clear, and the XOR draw with wrap-around and collision detection. -/

namespace Sys2Proof.Machine

/-- `fb[r][c]` (10_state.md R33). -/
def Framebuffer.pixel (fb : Framebuffer) (r : Fin 32) (c : Fin 64) : Bool := fb[r.val][c.val]

/-- `fb[r][c] <- not fb[r][c]`. -/
def Framebuffer.flip (fb : Framebuffer) (r : Fin 32) (c : Fin 64) : Framebuffer :=
  fb.set r.val (fb[r.val].set c.val (!fb[r.val][c.val]))

/-- The framebuffer with all 2048 pixels false (R170). -/
def blankScreen : Framebuffer := Vector.replicate 32 (Vector.replicate 64 false)

/-- A row number modulo 32 (R172). -/
def wrapRow (k : Nat) : Fin 32 := Fin.ofNat 32 k

/-- A column number modulo 64 (R172). -/
def wrapCol (k : Nat) : Fin 64 := Fin.ofNat 64 k

/-- A draw under way: the framebuffer so far, and whether a lit pixel has been erased. -/
structure Canvas where
  fb : Framebuffer
  collided : Bool
deriving DecidableEq, Repr

/-- XOR one pixel with `true`, noting a collision (R172). -/
def Canvas.plot (p : Canvas) (r : Fin 32) (c : Fin 64) : Canvas where
  fb := Framebuffer.flip p.fb r c
  collided := p.collided || Framebuffer.pixel p.fb r c

/-- Bit `7 - col` of a row byte is the pixel at column offset `col` (R171). -/
def spriteBit (b : Byte) (col : Nat) : Bool := b.getLsbD (7 - col)

/-- Draw one row byte at row `y`, columns `x0 .. x0 + 7`, each pixel wrapping on its own (R172). -/
def Canvas.drawRow (p : Canvas) (b : Byte) (y x0 : Nat) : Canvas :=
  (List.range 8).foldl
    (fun q col => if spriteBit b col then q.plot (wrapRow y) (wrapCol (x0 + col)) else q) p

/-- Draw the `n` rows of a sprite stored at `a` (R171, R172). -/
def Canvas.drawSprite (p : Canvas) (m : Memory) (a x0 y0 n : Nat) : Canvas :=
  (List.range n).foldl (fun q row => q.drawRow (m.read (a + row)) (y0 + row) x0) p

/-- The range check of DRW: none for height 0 (R172, decision D9). -/
def checkSprite (a n : Nat) : Except Report Unit :=
  if n = 0 then .ok () else checkRead .sprite a n

/-- `CLS` (R170). -/
def execCls (s : State) : StepResult := .next { s with fb := blankScreen }

/-- `DRW Vx, Vy, n` (R172): `VF` is written once, after all pixels. -/
def execDrw (x y : Reg) (n : Nat) (s : State) : StepResult :=
  attempt s (checkSprite s.ea n) fun _ =>
    let p := Canvas.drawSprite ⟨s.fb, false⟩ s.mem s.ea ((s.reg x).toNat % 64) ((s.reg y).toNat % 32) n
    .next ({ s with fb := p.fb }.setFlag p.collided)

end Sys2Proof.Machine
end

