-- ==== Sys2Proof/Machine/Input.lean ====
section
/-! DEFINITION. Keypad input and timer access (45_input_timers.md). -/

namespace Sys2Proof.Machine

/-- `SKP Vx` (R180). -/
def execSkp (x : Reg) (s : State) : StepResult :=
  attempt s (checkKey (s.reg x)) fun k => .next (s.skipIf s.key[k.val])

/-- `SKNP Vx` (R181). -/
def execSknp (x : Reg) (s : State) : StepResult :=
  attempt s (checkKey (s.reg x)) fun k => .next (s.skipIf (!s.key[k.val]))

/-- `LD Vx, K` (R182): the lowest pressed key, or `PC` back at this instruction. -/
def execLdVxK (x : Reg) (s : State) : StepResult :=
  match firstPressed s.key with
  | some k => .next (s.setReg x (BitVec.ofNat 8 k))
  | none => .next (s.jump (s.pc - 2))

/-- `LD Vx, DT` (R183). -/
def execLdVxDT (x : Reg) (s : State) : StepResult := .next (s.setReg x s.dt)

/-- `LD DT, Vx` (R184). -/
def execLdDTVx (x : Reg) (s : State) : StepResult := .next { s with dt := s.reg x }

/-- `LD ST, Vx` (R185). -/
def execLdSTVx (x : Reg) (s : State) : StepResult := .next { s with st := s.reg x }

end Sys2Proof.Machine
end

