-- ==== Sys2Proof/Machine/Transfer.lean ====
section
/-! DEFINITION. The address register and the moves between registers and memory (43_memory_transfer.md). `I` is the same after a transfer as before it (R150). -/

namespace Sys2Proof.Machine

/-- `LD I, addr` (R151). -/
def execLdI (a : Addr) (s : State) : StepResult := .next { s with i := addrWord a }

/-- `ADD I, Vx` (R152): modulo 2^16, no flag, no report (decision D6). -/
def execAddI (x : Reg) (s : State) : StepResult := .next { s with i := s.i + byteWord (s.reg x) }

/-- `LD F, Vx` (R153). -/
def execLdF (x : Reg) (s : State) : StepResult := .next { s with i := glyphAddr (s.reg x) }

/-- `LD B, Vx` (R154). -/
def execLdB (x : Reg) (s : State) : StepResult :=
  attempt s (checkWrite .bcd s.ea 3) fun _ =>
    .next { s with mem := s.mem.writeBytes s.ea (bcdDigits (s.reg x)) }

/-- `LD [I], Vx` (R155). -/
def execDump (x : Reg) (s : State) : StepResult :=
  attempt s (checkWrite .dump s.ea (x.val + 1)) fun _ =>
    .next { s with mem := s.mem.writeBytes s.ea (s.regRange x) }

/-- `LD Vx, [I]` (R156). -/
def execLoadRegs (x : Reg) (s : State) : StepResult :=
  attempt s (checkRead .loadRegs s.ea (x.val + 1)) fun _ => .next (s.loadRange s.ea x)

end Sys2Proof.Machine
end

