-- ==== Sys2Proof/Decode.lean ====
section
/-! DEFINITION. The decoder (30_encoding.md R71 to R77, 40_step.md R92), total on every word and on any bytes, the encoder, and the opcode map of R74 as mask and match words. The bit patterns are the spec's general knowledge (GK1, decision D1): assumption log 5. -/

namespace Sys2Proof

/-! ## Fields of a word (R71) -/

/-- `op = w[15:12]`. -/
def fieldOp (w : Word) : Nibble := w.extractLsb' 12 4
/-- `X = w[11:8]`. -/
def fieldX (w : Word) : Reg := (w.extractLsb' 8 4).toFin
/-- `Y = w[7:4]`. -/
def fieldY (w : Word) : Reg := (w.extractLsb' 4 4).toFin
/-- `N = w[3:0]`. -/
def fieldN (w : Word) : Nibble := w.extractLsb' 0 4
/-- `NN = w[7:0]`. -/
def fieldNN (w : Word) : Byte := w.extractLsb' 0 8
/-- `NNN = w[11:0]`. -/
def fieldNNN (w : Word) : Addr := w.extractLsb' 0 12

/-! ## Decoding -/

/-- Family 0: the whole word is fixed (R75). -/
def decodeFamily0 (w : Word) : Option Instr :=
  if w = 0x00E0#16 then some .cls
  else if w = 0x00EE#16 then some .ret
  else none

/-- Families 5 and 9: `N` must be 0 (R75, decision D2). -/
def decodeIfNZero (w : Word) (i : Instr) : Option Instr :=
  if fieldN w = 0x0#4 then some i else none

/-- Family 8: the sub-function is `N` (R72, R74). -/
def decodeFamily8 (w : Word) : Option Instr :=
  let x := fieldX w
  let y := fieldY w
  if fieldN w = 0x0#4 then some (.ldReg x y)
  else if fieldN w = 0x1#4 then some (.orReg x y)
  else if fieldN w = 0x2#4 then some (.andReg x y)
  else if fieldN w = 0x3#4 then some (.xorReg x y)
  else if fieldN w = 0x4#4 then some (.addReg x y)
  else if fieldN w = 0x5#4 then some (.sub x y)
  else if fieldN w = 0x6#4 then some (.shr x y)
  else if fieldN w = 0x7#4 then some (.subn x y)
  else if fieldN w = 0xE#4 then some (.shl x y)
  else none

/-- Family E: the sub-function is `NN` (R72, R74). -/
def decodeFamilyE (w : Word) : Option Instr :=
  if fieldNN w = 0x9E#8 then some (.skp (fieldX w))
  else if fieldNN w = 0xA1#8 then some (.sknp (fieldX w))
  else none

/-- Family F: the sub-function is `NN` (R72, R74). -/
def decodeFamilyF (w : Word) : Option Instr :=
  let x := fieldX w
  if fieldNN w = 0x07#8 then some (.ldVxDT x)
  else if fieldNN w = 0x0A#8 then some (.ldVxK x)
  else if fieldNN w = 0x15#8 then some (.ldDTVx x)
  else if fieldNN w = 0x18#8 then some (.ldSTVx x)
  else if fieldNN w = 0x1E#8 then some (.addI x)
  else if fieldNN w = 0x29#8 then some (.ldF x)
  else if fieldNN w = 0x33#8 then some (.ldB x)
  else if fieldNN w = 0x55#8 then some (.dumpRegs x)
  else if fieldNN w = 0x65#8 then some (.loadRegs x)
  else none

/-- Decode (R72, R92): the top nibble selects the family, the bottom 4 or 8 bits the operation.
`none` is `Invalid` (R76). -/
def decode (w : Word) : Option Instr :=
  match (fieldOp w).toNat with
  | 0x0 => decodeFamily0 w
  | 0x1 => some (.jp (fieldNNN w))
  | 0x2 => some (.call (fieldNNN w))
  | 0x3 => some (.seByte (fieldX w) (fieldNN w))
  | 0x4 => some (.sneByte (fieldX w) (fieldNN w))
  | 0x5 => decodeIfNZero w (.seReg (fieldX w) (fieldY w))
  | 0x6 => some (.ldByte (fieldX w) (fieldNN w))
  | 0x7 => some (.addByte (fieldX w) (fieldNN w))
  | 0x8 => decodeFamily8 w
  | 0x9 => decodeIfNZero w (.sneReg (fieldX w) (fieldY w))
  | 0xA => some (.ldI (fieldNNN w))
  | 0xB => some (.jpV0 (fieldNNN w))
  | 0xC => some (.rnd (fieldX w) (fieldNN w))
  | 0xD => some (.drw (fieldX w) (fieldY w) (fieldN w).toNat)
  | 0xE => decodeFamilyE w
  | _ => decodeFamilyF w

/-- Why bytes are no instruction. -/
inductive DecodeError where
  /-- Fewer than two bytes are left: every instruction is two bytes long (R70). -/
  | truncated
  /-- The word matches no row of the opcode map (R76). -/
  | invalid (w : Word)
deriving DecidableEq, Repr

/-- The word that two consecutive bytes make, big-endian (20_memory.md R52). -/
def wordOfBytes (hi lo : Byte) : Word := hi ++ lo

/-- Decode the instruction at the front of a byte sequence, giving the bytes after it. -/
def decodeBytes : List Byte → Except DecodeError (Instr × List Byte)
  | hi :: lo :: rest =>
    match decode (wordOfBytes hi lo) with
    | some i => .ok (i, rest)
    | none => .error (.invalid (wordOfBytes hi lo))
  | [_] => .error .truncated
  | [] => .error .truncated

/-- The two bytes of a word as memory holds them: the high byte at the lower address (20_memory.md R52). -/
def bytesOfWord (w : Word) : List Byte := [w.extractLsb' 8 8, w.extractLsb' 0 8]

/-- The 16-bit word that `spec/opcode_table.json` numbers as `w`, its bits above `nbits` being 0. -/
def tableWord (nbits w : Nat) : Word := BitVec.ofNat 16 (w % 2 ^ nbits)

/-- What the decoder reads from an instruction whose bits are `w`, numbered as spec/opcode_table.json numbers them. -/
def decodeTableWord (nbits w : Nat) : Option Instr :=
  match decodeBytes (bytesOfWord (tableWord nbits w)) with
  | .ok (i, _) => some i
  | .error _ => none

/-! ## Encoding -/

/-- A register index as its 4-bit field. -/
def regBits (r : Reg) : Nibble := BitVec.ofFin r

/-- Format `A`: `op NNN` (R71). -/
def packA (op : Nibble) (nnn : Addr) : Word := op ++ nnn
/-- Format `XB` and, with a fixed `NN`, `XF`: `op X NN` (R71). -/
def packXB (op : Nibble) (x : Reg) (nn : Byte) : Word := op ++ (regBits x ++ nn)
/-- Formats `XY` and `XYN`: `op X Y N` (R71). -/
def packXYN (op : Nibble) (x y : Reg) (n : Nibble) : Word := op ++ (regBits x ++ (regBits y ++ n))

/-- The word of an instruction (R74). -/
def encode : Instr → Word
  | .cls => 0x00E0#16
  | .ret => 0x00EE#16
  | .jp a => packA 0x1 a
  | .call a => packA 0x2 a
  | .seByte x nn => packXB 0x3 x nn
  | .sneByte x nn => packXB 0x4 x nn
  | .seReg x y => packXYN 0x5 x y 0x0
  | .ldByte x nn => packXB 0x6 x nn
  | .addByte x nn => packXB 0x7 x nn
  | .ldReg x y => packXYN 0x8 x y 0x0
  | .orReg x y => packXYN 0x8 x y 0x1
  | .andReg x y => packXYN 0x8 x y 0x2
  | .xorReg x y => packXYN 0x8 x y 0x3
  | .addReg x y => packXYN 0x8 x y 0x4
  | .sub x y => packXYN 0x8 x y 0x5
  | .shr x y => packXYN 0x8 x y 0x6
  | .subn x y => packXYN 0x8 x y 0x7
  | .shl x y => packXYN 0x8 x y 0xE
  | .sneReg x y => packXYN 0x9 x y 0x0
  | .ldI a => packA 0xA a
  | .jpV0 a => packA 0xB a
  | .rnd x nn => packXB 0xC x nn
  | .drw x y n => packXYN 0xD x y (BitVec.ofNat 4 n)
  | .skp x => packXB 0xE x 0x9E
  | .sknp x => packXB 0xE x 0xA1
  | .ldVxDT x => packXB 0xF x 0x07
  | .ldVxK x => packXB 0xF x 0x0A
  | .ldDTVx x => packXB 0xF x 0x15
  | .ldSTVx x => packXB 0xF x 0x18
  | .addI x => packXB 0xF x 0x1E
  | .ldF x => packXB 0xF x 0x29
  | .ldB x => packXB 0xF x 0x33
  | .dumpRegs x => packXB 0xF x 0x55
  | .loadRegs x => packXB 0xF x 0x65

/-! ## The opcode map as the spec's table gives it (R74) -/

/-- The row of R74 that an instruction belongs to, as its `mask` and `match` words. -/
def opcodeRow : Instr → Word × Word
  | .cls => (0xFFFF, 0x00E0)
  | .ret => (0xFFFF, 0x00EE)
  | .jp _ => (0xF000, 0x1000)
  | .call _ => (0xF000, 0x2000)
  | .seByte _ _ => (0xF000, 0x3000)
  | .sneByte _ _ => (0xF000, 0x4000)
  | .seReg _ _ => (0xF00F, 0x5000)
  | .ldByte _ _ => (0xF000, 0x6000)
  | .addByte _ _ => (0xF000, 0x7000)
  | .ldReg _ _ => (0xF00F, 0x8000)
  | .orReg _ _ => (0xF00F, 0x8001)
  | .andReg _ _ => (0xF00F, 0x8002)
  | .xorReg _ _ => (0xF00F, 0x8003)
  | .addReg _ _ => (0xF00F, 0x8004)
  | .sub _ _ => (0xF00F, 0x8005)
  | .shr _ _ => (0xF00F, 0x8006)
  | .subn _ _ => (0xF00F, 0x8007)
  | .shl _ _ => (0xF00F, 0x800E)
  | .sneReg _ _ => (0xF00F, 0x9000)
  | .ldI _ => (0xF000, 0xA000)
  | .jpV0 _ => (0xF000, 0xB000)
  | .rnd _ _ => (0xF000, 0xC000)
  | .drw _ _ _ => (0xF000, 0xD000)
  | .skp _ => (0xF0FF, 0xE09E)
  | .sknp _ => (0xF0FF, 0xE0A1)
  | .ldVxDT _ => (0xF0FF, 0xF007)
  | .ldVxK _ => (0xF0FF, 0xF00A)
  | .ldDTVx _ => (0xF0FF, 0xF015)
  | .ldSTVx _ => (0xF0FF, 0xF018)
  | .addI _ => (0xF0FF, 0xF01E)
  | .ldF _ => (0xF0FF, 0xF029)
  | .ldB _ => (0xF0FF, 0xF033)
  | .dumpRegs _ => (0xF0FF, 0xF055)
  | .loadRegs _ => (0xF0FF, 0xF065)

/-- A word selects the row of `i` (R74: "when `w AND mask = match`"). -/
def selectsRow (w : Word) (i : Instr) : Bool := w &&& (opcodeRow i).1 == (opcodeRow i).2

end Sys2Proof
end

