-- ==== Sys2Proof/Machine/Fetch.lean ====
section
/-! DEFINITION. The fetch (40_step.md R90, R91) and the placing of one instruction word where the fetch reads. -/

namespace Sys2Proof.Machine

/-- The word at `PC`, `PC + 1`, big-endian (20_memory.md R52). -/
def State.fetchWord (s : State) : Word :=
  wordOfBytes (s.mem.read s.pc.toNat) (s.mem.read (s.pc.toNat + 1))

/-- The state after the fetch: `PC` advanced by 2 modulo 2^16, no error reported (40_step.md R90). -/
def State.fetched (s : State) : State := { s with pc := s.pc + 2, report := .ok }

/-- The state with `PC` where an instruction can be fetched: unchanged where both bytes are in memory, else the reset
entry point (log 9). -/
def State.atFetchable (s : State) : State :=
  if s.pc.toNat + 1 > Config.memAddrMax then { s with pc := 0x200 } else s

/-- The state with a word stored at `PC`, `PC + 1` (log 9). -/
def State.withWordAtPc (s : State) (w : Word) : State :=
  { s with mem := s.mem.writeBytes s.pc.toNat (bytesOfWord w) }

end Sys2Proof.Machine
end

