-- ==== Sys2Proof/Machine/Step.lean ====
section
/-! DEFINITION. One step: exactly one fetch-decode-execute of a single instruction (40_step.md R90 to R95). -/

namespace Sys2Proof.Machine

/-- Decode and execute a fetched word from the state after the fetch (40_step.md R90, R94). -/
def runWord (w : Word) (s : State) : Host.Outcome State Fault Refusal :=
  match decode w with
  | some i => exec i s
  | none => raise s (.invalidOpcode w)

/-- `step()` (40_step.md R90). A fetch past the end of memory changes nothing and is reported (R91). -/
def step (s : State) : Host.Outcome State Fault Refusal :=
  attempt s (checkRead .fetch s.pc.toNat 2) fun _ => runWord s.fetchWord s.fetched

/-- The state whose next step fetches and runs the word that spec/opcode_table.json numbers as `w`. It stands for the
host's `load` (70_reset_and_hazards.md R242): assumption log 9. -/
def State.withFetchWord (s : State) (nbits w : Nat) : State :=
  s.atFetchable.withWordAtPc (tableWord nbits w)

end Sys2Proof.Machine
end

