-- ==== Sys2Proof/Machine/HostPort.lean ====
section
/-! DEFINITION. The host's operations on the engine besides `step()`: tick, load, reset, key writes, the framebuffer read-out (60_exceptions.md R220; 70_reset_and_hazards.md R240, R242). Each is one atomic event between steps (R225). -/

namespace Sys2Proof.Machine

/-- A timer after one tick: one less, never below 0 (10_state.md R32, 60_exceptions.md R210). -/
def timerTick (b : Byte) : Byte := if b = 0 then 0 else b - 1

/-- The tone signal of a tick: exactly when `ST = 1` at its start (60_exceptions.md R211, decision D22). -/
def tone (s : State) : Bool := s.st == 1

/-- `tick()` (60_exceptions.md R210): the state after it, and the tone bit. -/
def tick (s : State) : State × Bool := ({ s with dt := timerTick s.dt, st := timerTick s.st }, tone s)

/-- `load(bytes)` (70_reset_and_hazards.md R242, R243): all the bytes from 0x200 upward, or nothing. -/
def load (bytes : List Byte) (s : State) : State × Report :=
  if bytes.length = 0 then (s, .loadEmpty)
  else if bytes.length > Config.progMax then (s, .loadTooLarge bytes.length)
  else ({ s with mem := s.mem.writeBytes Config.progBase bytes }, .ok)

/-- `reset()` (70_reset_and_hazards.md R240, decision D19): the constructed state, but the keypad is the host's and
stays. `draws` stays too, so that no random byte is drawn twice (log 10). -/
def hostReset (s : State) : State := { State.reset with key := s.key, draws := s.draws }

/-- The host writes `key[k]` (60_exceptions.md R223). -/
def setKey (k : Fin 16) (down : Bool) (s : State) : State := { s with key := s.key.set k.val down }

/-- The framebuffer read-out, a snapshot (60_exceptions.md R222). -/
def readFramebuffer (s : State) : Framebuffer := s.fb

/-- The numeric code of an outcome (60_exceptions.md R200, decision D25). -/
def Report.code : Report → Nat
  | .ok => 0
  | .invalidOpcode _ => 1
  | .stackOverflow _ => 2
  | .stackUnderflow _ => 3
  | .addressOutOfRange _ _ _ => 4
  | .fontWrite _ _ _ => 5
  | .loadEmpty => 6
  | .loadTooLarge _ => 7

/-- The host's operations (60_exceptions.md R220). -/
inductive HostOp where
  /-- one fetch-decode-execute -/
  | step
  /-- one timer decay -/
  | tick
  /-- a program load -/
  | load (bytes : List Byte)
  /-- restore the initial state -/
  | reset
  /-- a key goes down (`true`) or up -/
  | setKey (k : Fin 16) (down : Bool)
  /-- pull the framebuffer -/
  | readFramebuffer
deriving DecidableEq, Repr

/-- What the host gets back (60_exceptions.md R220). -/
inductive Reply where
  /-- nothing -/
  | nothing
  /-- the outcome of a step or a load -/
  | outcome (r : Report)
  /-- the tone bit of a tick -/
  | tone (b : Bool)
  /-- a copy of the framebuffer -/
  | framebuffer (fb : Framebuffer)
deriving DecidableEq, Repr

/-- One host operation: the state after it and what the host gets back (60_exceptions.md R220, R225). -/
def applyHostOp (op : HostOp) (s : State) : Host.Outcome (State × Reply) Fault Refusal :=
  match op with
  | .step =>
    match step s with
    | .next t => .next (t, .outcome t.report)
    | .fault r => .fault r
    | .refused r => .refused r
  | .tick => .next ((tick s).1, .tone (tick s).2)
  | .load bytes => .next ((load bytes s).1, .outcome (load bytes s).2)
  | .reset => .next (hostReset s, .nothing)
  | .setKey k down => .next (setKey k down s, .nothing)
  | .readFramebuffer => .next (s, .framebuffer (readFramebuffer s))

/-- The state that one host operation leaves, without what the host gets back. -/
def hostStep (op : HostOp) (s : State) : StepResult :=
  match applyHostOp op s with
  | .next p => .next p.1
  | .fault r => .fault r
  | .refused r => .refused r

/-- A finite run: host operations in their total order (60_exceptions.md R225, R226), giving the state at its end. -/
def runHost : List HostOp → State → StepResult
  | [], s => .next s
  | op :: ops, s =>
    match hostStep op s with
    | .next t => runHost ops t
    | .fault r => .fault r
    | .refused r => .refused r

/-- An infinite run (60_exceptions.md R226): `ops k` is the host's operation number `k`, and `infiniteRun ops s k` is the
state before it, so that the run is the sequence of these states. Every sequence of operations is a run: the spec does
not say that it ends, nor how many steps stand between two ticks (70_reset_and_hazards.md R248). -/
def infiniteRun (ops : Nat → HostOp) (s : State) : Nat → StepResult
  | 0 => .next s
  | k + 1 =>
    match infiniteRun ops s k with
    | .next t => hostStep (ops k) t
    | .fault r => .fault r
    | .refused r => .refused r

/-- The first `k` operations of an infinite sequence. -/
def firstOps (ops : Nat → HostOp) (k : Nat) : List HostOp := (List.range k).map ops

end Sys2Proof.Machine
end

