-- ==== Sys2Proof/Safety.lean ====
section
/-! DEFINITION. The terms that claims use: which part of the state an instruction leaves as it was, the invariant that every step and every host operation keeps, and a step without error. -/

namespace Sys2Proof.Machine

/-- The parts of the state that a frame speaks of (10_state.md R20, and the model's own two fields). -/
inductive Part where
  | mem | regs | i | pc | stack | dt | st | fb | key | draws | report
deriving DecidableEq, Repr

/-- A part reads the same in both states: memory byte by byte, the registers one by one, the rest as data. -/
def sameIn (p : Part) (s t : State) : Prop :=
  match p with
  | .mem => ∀ a : Nat, t.mem.read a = s.mem.read a
  | .regs => ∀ r : Reg, t.reg r = s.reg r
  | .i => t.i = s.i
  | .pc => t.pc = s.pc
  | .stack => t.stack = s.stack ∧ t.sp = s.sp
  | .dt => t.dt = s.dt
  | .st => t.st = s.st
  | .fb => t.fb = s.fb
  | .key => t.key = s.key
  | .draws => t.draws = s.draws
  | .report => t.report = s.report

/-- The frame: every part that is not named reads the same. -/
def keepsAllBut (changed : List Part) (s t : State) : Prop := ∀ p, p ∉ changed → sameIn p s t

/-- Every register but one reads the same. -/
def otherRegsSame (x : Reg) (s t : State) : Prop := ∀ r, r ≠ x → t.reg r = s.reg r

/-- Every register but one and the flag register reads the same. -/
def otherRegsButFlagSame (x : Reg) (s t : State) : Prop := ∀ r, r ≠ x → r ≠ flagReg → t.reg r = s.reg r

/-- No listed cell lies in the font region: the font reads as at construction (20_memory.md R56). -/
def fontIntact (m : Memory) : Prop := ∀ c ∈ m, inFont c.1 = false

/-- Return addresses are addresses that a fetch can leave in `PC` (10_state.md R29). -/
def stackInRange (s : State) : Prop := ∀ k : Fin 16, s.stack[k.val].toNat ≤ 0x1000

/-- The invariant: memory is canonical, the font is as constructed, and `PC` stays below 0x1100 (10_state.md R29). -/
structure Inv (s : State) : Prop where
  memCanonical : s.mem.wf
  font : fontIntact s.mem
  pcRange : s.pc.toNat < 0x1100
  stackRange : stackInRange s

/-- The sprite of `DRW Vx, Vy, n` at the address `I` has a 1 bit that falls on the pixel in row `r`, column `c`: some row
offset `row` below `n` and column offset `col` below 8 wrap to it, and bit `7 - col` of byte `row` is set (44_display.md
R171, R172). -/
def spriteCovers (s : State) (x y : Reg) (n : Nat) (r : Fin 32) (c : Fin 64) : Prop :=
  ∃ row col : Nat, row < n ∧ col < 8 ∧
    r.val = ((s.reg y).toNat + row) % 32 ∧ c.val = ((s.reg x).toNat + col) % 64 ∧
    (s.mem.read (s.i.toNat + row)).getLsbD (7 - col) = true

/-- The state after `k` ticks and nothing else. -/
def ticks : Nat → State → State
  | 0, s => s
  | k + 1, s => ticks k (tick s).1

/-- Every byte of an access lies in the address space (20_memory.md R50). -/
def inSpace (a n : Nat) : Prop := a + n ≤ 0x1000

/-- An access of `n` bytes at `a` meets the font region 0x050..0x09F (20_memory.md R56). -/
def meetsFont (a n : Nat) : Prop := ∃ k, k < n ∧ 0x050 ≤ a + k ∧ a + k ≤ 0x09F

/-- The condition under which an instruction, in the state after the fetch, returns `ok` (60_exceptions.md R200 and the
rules it names): the stack is not full or not empty, the access lies in the space and clear of the font, the key index
is a key's. Every other instruction always does. -/
def runsOk (i : Instr) (s : State) : Prop :=
  match i with
  | .ret => 0 < s.sp.val
  | .call _ => s.sp.val < 16
  | .drw _ _ n => n = 0 ∨ inSpace s.i.toNat n
  | .ldB _ => inSpace s.i.toNat 3 ∧ ¬ meetsFont s.i.toNat 3
  | .dumpRegs x => inSpace s.i.toNat (x.val + 1) ∧ ¬ meetsFont s.i.toNat (x.val + 1)
  | .loadRegs x => inSpace s.i.toNat (x.val + 1)
  | .skp x | .sknp x => (s.reg x).toNat < 16
  | .cls | .jp _ | .seByte _ _ | .sneByte _ _ | .seReg _ _ | .ldByte _ _ | .addByte _ _ | .ldReg _ _
  | .orReg _ _ | .andReg _ _ | .xorReg _ _ | .addReg _ _ | .sub _ _ | .shr _ _ | .subn _ _ | .shl _ _
  | .sneReg _ _ | .ldI _ | .jpV0 _ | .rnd _ _ | .ldVxDT _ | .ldVxK _ | .ldDTVx _ | .ldSTVx _ | .addI _
  | .ldF _ => True

/-- A step that returns `ok` (40_step.md R95): the premise "no error reported" of decision D17. -/
def okStep (s t : State) : Prop := step s = .next t ∧ t.report = .ok

end Sys2Proof.Machine
end

