-- ==== Sys2Proof/Certificates/Slice0/Obligations.lean ====
section
/-! DEFINITION. The statements for the provers, from the rules of spec/ file by file. A meaning runs after the fetch, so in a statement about `exec` the `PC` of the state is already the address of the next instruction (10_state.md R26). The `Encoding:` line of an instruction's rule is no rule of the source (GK1, decision D1, log 5): it is stated apart, in the encoding statements, and a statement that cites an instruction's rule states the rest of it. -/

open Sys2Proof Sys2Proof.Machine

/-! ## Encoding (30_encoding.md) -/

/-- Words written out from the encodings of R74, several of them the spec's own examples, decode to the instructions
they stand for. The bit patterns are log 5 (GK1). -/
def Obligations.SpecWordsDecode : Prop :=
  decode 0x00E0 = some .cls ∧ decode 0x00EE = some .ret ∧ decode 0x1234 = some (.jp 0x234) ∧
  decode 0x3312 = some (.seByte 3 0x12) ∧ decode 0x8014 = some (.addReg 0 1) ∧
  decode 0x8AB6 = some (.shr 10 11) ∧ decode 0xD120 = some (.drw 1 2 0) ∧
  decode 0xE1A1 = some (.sknp 1) ∧ decode 0xF733 = some (.ldB 7) ∧
  decode 0x0123 = none ∧ decode 0x5121 = none ∧ decode 0x8008 = none ∧ decode 0xE09F = none ∧
  decode 0xF066 = none

/-- Decoding the word of a well-formed instruction gives the instruction back, whatever its operands. -/
def Obligations.DecodeOfEncodeIsTheInstruction : Prop :=
  ∀ i : Instr, i.wellFormed = true → decode (encode i) = some i

/-- The decoder gives only well-formed instructions, and a decoded word is the word of its instruction: no bit of it is
lost, and no two words decode to one instruction. For the words 8XY6 and 8XYE this is the model's own choice to keep the
ignored `Y` field in the term (log 12, DESIGN CHOICE): the spec reads 0x8AB6 as `SHR VA` with `Y` ignored. -/
def Obligations.DecodedWordEncodesBack : Prop :=
  ∀ (w : Word) (i : Instr), decode w = some i → i.wellFormed = true ∧ encode i = w

/-- The opcode map of R74: a word whose masked bits equal a row's match decodes to an instruction of that row, a decoded
word selects its instruction's row, and no word selects two rows. -/
def Obligations.OpcodeMapSelectsOneRow : Prop :=
  (∀ (w : Word) (i : Instr), selectsRow w i = true →
    ∃ j, decode w = some j ∧ opcodeRow j = opcodeRow i) ∧
  (∀ (w : Word) (j : Instr), decode w = some j → selectsRow w j = true) ∧
  (∀ (w : Word) (i j : Instr), selectsRow w i = true → selectsRow w j = true → opcodeRow i = opcodeRow j)

/-- The invalid words are those of the table of R76, and no other (strict decoding, decision D2). -/
def Obligations.InvalidWordsAreExactlyThoseListed : Prop :=
  ∀ w : Word, decode w = none ↔
    ((fieldOp w = 0x0 ∧ w ≠ 0x00E0 ∧ w ≠ 0x00EE) ∨
     (fieldOp w = 0x5 ∧ fieldN w ≠ 0x0) ∨
     (fieldOp w = 0x8 ∧ fieldN w ∈ [0x8, 0x9, 0xA, 0xB, 0xC, 0xD, 0xF]) ∨
     (fieldOp w = 0x9 ∧ fieldN w ≠ 0x0) ∨
     (fieldOp w = 0xE ∧ fieldNN w ∉ [0x9E, 0xA1]) ∨
     (fieldOp w = 0xF ∧ fieldNN w ∉ [0x07, 0x0A, 0x15, 0x18, 0x1E, 0x29, 0x33, 0x55, 0x65]))

/-! ## The step (40_step.md) -/

/-- When both bytes at `PC` are in memory and, high byte first, decode to an instruction, the step is that instruction
run from the state after the fetch: `PC` advanced by 2, no error reported yet. -/
def Obligations.StepRunsTheDecodedInstruction : Prop :=
  ∀ (s : State) (i : Instr), s.pc.toNat < 0x0FFF →
    decode (s.mem.read s.pc.toNat ++ s.mem.read (s.pc.toNat + 1)) = some i →
    i.wellFormed = true →
    step s = exec i { s with pc := s.pc + 2, report := .ok }

/-- A word that decodes to nothing is reported, and leaves `PC` past it and nothing else changed. That the report is a
next state is log 1. -/
def Obligations.InvalidWordIsReportedAndPassed : Prop :=
  ∀ s : State, s.pc.toNat < 0x0FFF →
    decode (s.mem.read s.pc.toNat ++ s.mem.read (s.pc.toNat + 1)) = none →
    step s = .next { s with pc := s.pc + 2,
                            report := .invalidOpcode (s.mem.read s.pc.toNat ++ s.mem.read (s.pc.toNat + 1)) }

/-- A fetch past the end of memory is reported, changes nothing, and is reported again by every later step (decision D5,
the spec's own; logs 1 and 2). -/
def Obligations.FetchPastMemoryRepeatsItsReport : Prop :=
  ∀ (s : State) (k : Nat), 0x0FFF ≤ s.pc.toNat →
    Sys2Proof.core.run (k + 1) s =
      .next { s with report := .addressOutOfRange .fetch s.pc.toNat 2 }

/-- The engine never stops by itself: from every state, any number of steps completes. -/
def Obligations.EngineNeverStopsByItself : Prop :=
  ∀ (k : Nat) (s : State), ∃ t, Sys2Proof.core.run k s = .next t

/-- After an error of an instruction the state is exactly the state after the fetch, but for the report (decision D4,
the spec's own; log 1). -/
def Obligations.ErrorLeavesTheStateAfterTheFetch : Prop :=
  ∀ (i : Instr) (s t : State), s.report = .ok → exec i s = .next t → t.report ≠ .ok →
    t = { s with report := t.report }

/-- Which instruction can report what: the table of R200 and the checks of R186, R101, R103 and 20_memory.md R58. -/
def Obligations.OnlyTheListedInstructionsReport : Prop :=
  ∀ (i : Instr) (s t : State), s.report = .ok → exec i s = .next t → t.report ≠ .ok →
    match i with
    | .ret => t.report = .stackUnderflow s.pc ∧ s.sp.val = 0
    | .call _ => t.report = .stackOverflow s.pc ∧ s.sp.val = 16
    | .drw _ _ n => t.report = .addressOutOfRange .sprite s.i.toNat n ∧ 0 < n ∧ ¬ inSpace s.i.toNat n
    | .ldB _ =>
      (t.report = .addressOutOfRange .bcd s.i.toNat 3 ∧ ¬ inSpace s.i.toNat 3) ∨
      (t.report = .fontWrite .bcd s.i.toNat 3 ∧ meetsFont s.i.toNat 3)
    | .dumpRegs x =>
      (t.report = .addressOutOfRange .dump s.i.toNat (x.val + 1) ∧ ¬ inSpace s.i.toNat (x.val + 1)) ∨
      (t.report = .fontWrite .dump s.i.toNat (x.val + 1) ∧ meetsFont s.i.toNat (x.val + 1))
    | .loadRegs x =>
      t.report = .addressOutOfRange .loadRegs s.i.toNat (x.val + 1) ∧ ¬ inSpace s.i.toNat (x.val + 1)
    | .skp x | .sknp x =>
      t.report = .addressOutOfRange .keypad (s.reg x).toNat 1 ∧ 15 < (s.reg x).toNat
    | _ => False

/-- A step returns `ok` exactly when the fetch lies in memory, the word is an instruction, and the instruction's own
check passes: no error is left out and none is added. -/
def Obligations.StepReturnsOkExactlyWhenItsChecksPass : Prop :=
  ∀ s : State, (∃ t, okStep s t) ↔
    s.pc.toNat < 0x0FFF ∧ ∃ i, decode s.fetchWord = some i ∧ runsOk i s.fetched

/-! ## Control flow (41_control_flow.md) -/

/-- `JP addr` puts the 12-bit address, widened with zeros, into `PC` and changes nothing else. -/
def Obligations.JumpSetsPcToItsAddress : Prop :=
  ∀ (a : Addr) (s : State), ∃ t, exec (.jp a) s = .next t ∧
    t.pc.toNat = a.toNat ∧ keepsAllBut [.pc] s t

/-- `JP V0, addr` puts `NNN + V0`, not masked to 12 bits, into `PC` and changes nothing else (decision D7, the spec's
own). -/
def Obligations.JumpWithOffsetAddsRegisterZero : Prop :=
  ∀ (a : Addr) (s : State), ∃ t, exec (.jpV0 a) s = .next t ∧
    t.pc.toNat = a.toNat + (s.reg 0).toNat ∧ keepsAllBut [.pc] s t

/-- `CALL addr` below depth 16 pushes the advanced `PC` into slot `SP`, leaves the other slots, and jumps; at depth 16 it
reports the overflow and changes nothing (decision D4, the spec's own). -/
def Obligations.CallPushesTheReturnAddress : Prop :=
  ∀ (a : Addr) (s : State),
    (s.sp.val < 16 → ∃ t, exec (.call a) s = .next t ∧
      t.pc.toNat = a.toNat ∧ t.sp.val = s.sp.val + 1 ∧
      (∀ k : Fin 16, t.stack[k.val] = if k.val = s.sp.val then s.pc else s.stack[k.val]) ∧
      keepsAllBut [.pc, .stack] s t) ∧
    (s.sp.val = 16 → exec (.call a) s = .next { s with report := .stackOverflow s.pc })

/-- `RET` above depth 0 pops the top slot into `PC` as it is, and leaves the slot's value; at depth 0 it reports the
underflow and changes nothing (decisions D4 and D24, the spec's own). -/
def Obligations.ReturnPopsIntoPc : Prop :=
  ∀ s : State,
    (∀ k : Fin 16, s.sp.val = k.val + 1 → ∃ t, exec .ret s = .next t ∧
      t.pc = s.stack[k.val] ∧ t.sp.val = k.val ∧ t.stack = s.stack ∧
      keepsAllBut [.pc, .stack] s t) ∧
    (s.sp.val = 0 → exec .ret s = .next { s with report := .stackUnderflow s.pc })

/-- A `CALL`, then code that leaves the stack as the `CALL` left it, then a `RET`: `PC` is back at the instruction after
the `CALL`, and the depth is as before. -/
def Obligations.ReturnUndoesCall : Prop :=
  ∀ (a : Addr) (s : State), s.sp.val < 16 → ∃ t, exec (.call a) s = .next t ∧
    ∀ t' : State, t'.stack = t.stack → t'.sp = t.sp →
      ∃ u, exec .ret t' = .next u ∧ u.pc = s.pc ∧ u.sp = s.sp ∧ keepsAllBut [.pc, .stack] t' u

/-- The four register skips add 2 to `PC` exactly when their comparison holds, and change nothing else. -/
def Obligations.CompareSkipsAddTwoOnTheirCondition : Prop :=
  ∀ (x y : Reg) (nn : Byte) (s : State),
    (∃ t, exec (.seByte x nn) s = .next t ∧
      t.pc = (if s.reg x = nn then s.pc + 2 else s.pc) ∧ keepsAllBut [.pc] s t) ∧
    (∃ t, exec (.sneByte x nn) s = .next t ∧
      t.pc = (if s.reg x ≠ nn then s.pc + 2 else s.pc) ∧ keepsAllBut [.pc] s t) ∧
    (∃ t, exec (.seReg x y) s = .next t ∧
      t.pc = (if s.reg x = s.reg y then s.pc + 2 else s.pc) ∧ keepsAllBut [.pc] s t) ∧
    (∃ t, exec (.sneReg x y) s = .next t ∧
      t.pc = (if s.reg x ≠ s.reg y then s.pc + 2 else s.pc) ∧ keepsAllBut [.pc] s t)

/-- How each instruction leaves `PC` (10_state.md R27): as the fetch left it, but for the jumps, the call and the return,
the skips, and the key wait. -/
def Obligations.OnlyControlInstructionsMovePc : Prop :=
  ∀ (i : Instr) (s t : State), exec i s = .next t →
    match i with
    | .jp a | .call a => t.pc.toNat = a.toNat ∨ (t.pc = s.pc ∧ t.report ≠ .ok)
    | .jpV0 a => t.pc.toNat = a.toNat + (s.reg 0).toNat
    | .ret => (∃ k : Fin 16, t.pc = s.stack[k.val]) ∨ (t.pc = s.pc ∧ t.report ≠ .ok)
    | .seByte _ _ | .sneByte _ _ | .seReg _ _ | .sneReg _ _ | .skp _ | .sknp _ =>
      t.pc = s.pc ∨ t.pc = s.pc + 2
    | .ldVxK _ => t.pc = s.pc ∨ (t.pc = s.pc - 2 ∧ ∀ k : Fin 16, s.key[k.val] = false)
    | _ => t.pc = s.pc

/-! ## Register loads and the ALU (42_alu.md) -/

/-- `LD Vx, byte`, `LD Vx, Vy` and `ADD Vx, byte` write their register, the sum modulo 256, and nothing else: no flag is
touched unless `VF` is the destination. -/
def Obligations.LoadsAndImmediateAddWriteOneRegister : Prop :=
  ∀ (x y : Reg) (nn : Byte) (s : State),
    (∃ t, exec (.ldByte x nn) s = .next t ∧
      t.reg x = nn ∧ otherRegsSame x s t ∧ keepsAllBut [.regs] s t) ∧
    (∃ t, exec (.ldReg x y) s = .next t ∧
      t.reg x = s.reg y ∧ otherRegsSame x s t ∧ keepsAllBut [.regs] s t) ∧
    (∃ t, exec (.addByte x nn) s = .next t ∧
      (t.reg x).toNat = ((s.reg x).toNat + nn.toNat) % 256 ∧
      otherRegsSame x s t ∧ keepsAllBut [.regs] s t)

/-- `OR`, `AND` and `XOR` combine bit by bit into `Vx` and change nothing else; the flag register is untouched unless it
is the destination. -/
def Obligations.BitwiseOperationsLeaveTheFlag : Prop :=
  ∀ (x y : Reg) (s : State),
    (∃ t, exec (.orReg x y) s = .next t ∧
      (∀ b : Fin 8, (t.reg x).getLsbD b = ((s.reg x).getLsbD b || (s.reg y).getLsbD b)) ∧
      otherRegsSame x s t ∧ keepsAllBut [.regs] s t) ∧
    (∃ t, exec (.andReg x y) s = .next t ∧
      (∀ b : Fin 8, (t.reg x).getLsbD b = ((s.reg x).getLsbD b && (s.reg y).getLsbD b)) ∧
      otherRegsSame x s t ∧ keepsAllBut [.regs] s t) ∧
    (∃ t, exec (.xorReg x y) s = .next t ∧
      (∀ b : Fin 8, (t.reg x).getLsbD b = ((s.reg x).getLsbD b != (s.reg y).getLsbD b)) ∧
      otherRegsSame x s t ∧ keepsAllBut [.regs] s t)

/-- `ADD Vx, Vy`: the sum modulo 256 goes to `Vx`, then the carry to `VF`, which it holds even when `X` is 0xF (R121,
decision D8, the spec's own); nothing else changes. -/
def Obligations.AddRegistersSetsCarry : Prop :=
  ∀ (x y : Reg) (s : State), ∃ t, exec (.addReg x y) s = .next t ∧
    (x ≠ 15 → (t.reg x).toNat = ((s.reg x).toNat + (s.reg y).toNat) % 256) ∧
    t.reg 15 = (if (s.reg x).toNat + (s.reg y).toNat > 255 then 1 else 0) ∧
    otherRegsButFlagSame x s t ∧ keepsAllBut [.regs] s t

/-- `SUB Vx, Vy` and `SUBN Vx, Vy`: the difference modulo 256 goes to `Vx`, then not-borrow to `VF` (R121, decision D8,
the spec's own); nothing else changes. -/
def Obligations.SubtractionsSetNotBorrow : Prop :=
  ∀ (x y : Reg) (s : State),
    (∃ t, exec (.sub x y) s = .next t ∧
      (x ≠ 15 → (t.reg x).toNat = ((s.reg x).toNat + 256 - (s.reg y).toNat) % 256) ∧
      t.reg 15 = (if (s.reg x).toNat ≥ (s.reg y).toNat then 1 else 0) ∧
      otherRegsButFlagSame x s t ∧ keepsAllBut [.regs] s t) ∧
    (∃ t, exec (.subn x y) s = .next t ∧
      (x ≠ 15 → (t.reg x).toNat = ((s.reg y).toNat + 256 - (s.reg x).toNat) % 256) ∧
      t.reg 15 = (if (s.reg y).toNat ≥ (s.reg x).toNat then 1 else 0) ∧
      otherRegsButFlagSame x s t ∧ keepsAllBut [.regs] s t)

/-- `SHR Vx` and `SHL Vx` shift `Vx` by one with a zero moved in, then put the bit moved out into `VF` (R121, decision D8,
the spec's own); nothing else changes. -/
def Obligations.ShiftsMoveOneBitIntoTheFlag : Prop :=
  ∀ (x y : Reg) (s : State),
    (∃ t, exec (.shr x y) s = .next t ∧
      (x ≠ 15 → (t.reg x).toNat = (s.reg x).toNat / 2) ∧
      (t.reg 15).toNat = (s.reg x).toNat % 2 ∧
      otherRegsButFlagSame x s t ∧ keepsAllBut [.regs] s t) ∧
    (∃ t, exec (.shl x y) s = .next t ∧
      (x ≠ 15 → (t.reg x).toNat = (s.reg x).toNat * 2 % 256) ∧
      (t.reg 15).toNat = (s.reg x).toNat / 128 ∧
      otherRegsButFlagSame x s t ∧ keepsAllBut [.regs] s t)

/-- The shifts operate on `Vx` alone (R134): changing the `Y` field of a shift's word leaves it that shift, the `Y` field
has no effect, and the value of another register changes nothing that the shift writes. -/
def Obligations.ShiftsNeitherReadNorNeedY : Prop :=
  (∀ (w w' : Word) (x y : Reg), w &&& 0xFF0F = w' &&& 0xFF0F →
    (decode w = some (.shr x y) → decode w' = some (.shr x (fieldY w'))) ∧
    (decode w = some (.shl x y) → decode w' = some (.shl x (fieldY w')))) ∧
  (∀ (x y y' : Reg) (s : State),
    exec (.shr x y) s = exec (.shr x y') s ∧ exec (.shl x y) s = exec (.shl x y') s) ∧
  (∀ (x y r : Reg) (b : Byte) (s : State), r ≠ x →
    (∃ t t', exec (.shr x y) s = .next t ∧ exec (.shr x y) (s.setReg r b) = .next t' ∧
      t'.reg x = t.reg x ∧ t'.vf = t.vf) ∧
    (∃ t t', exec (.shl x y) s = .next t ∧ exec (.shl x y) (s.setReg r b) = .next t' ∧
      t'.reg x = t.reg x ∧ t'.vf = t.vf))

/-- `RND Vx, byte` writes one fresh random byte masked with `NN` (decision D21; the byte is the free value of log 3, and
nothing is said of it), draws once, and changes nothing else. In particular every bit that `NN` clears is 0. -/
def Obligations.RandomByteIsMasked : Prop :=
  ∀ (x : Reg) (nn : Byte) (s : State), ∃ t, exec (.rnd x nn) s = .next t ∧
    t.reg x = Config.random8 s.draws &&& nn ∧
    (∀ b : Fin 8, nn.getLsbD b = false → (t.reg x).getLsbD b = false) ∧
    t.draws = s.draws + 1 ∧ otherRegsSame x s t ∧ keepsAllBut [.regs, .draws] s t

/-- The flag side effect (10_state.md R24): an instruction that is none of the six flag writers and does not name
register 0xF as its destination or in its loaded range leaves `VF` as it was. -/
def Obligations.OnlySixInstructionsWriteTheFlag : Prop :=
  ∀ (i : Instr) (s t : State), exec i s = .next t →
    (match i with
      | .addReg _ _ | .sub _ _ | .subn _ _ | .shr _ _ | .shl _ _ | .drw _ _ _ => False
      | .ldByte x _ | .addByte x _ | .ldReg x _ | .orReg x _ | .andReg x _ | .xorReg x _ | .rnd x _
      | .ldVxDT x | .ldVxK x | .loadRegs x => x ≠ 15
      | _ => True) →
    t.vf = s.vf

/-! ## The address register and memory transfer (43_memory_transfer.md) -/

/-- `LD I, addr` puts the 12-bit address, widened with zeros, into `I` and changes nothing else. -/
def Obligations.LoadAddressSetsI : Prop :=
  ∀ (a : Addr) (s : State), ∃ t, exec (.ldI a) s = .next t ∧
    t.i.toNat = a.toNat ∧ keepsAllBut [.i] s t

/-- `ADD I, Vx` adds modulo 2^16 with no flag and no report (decision D6, the spec's own); `LD F, Vx` finds the glyph
address without masking `Vx` (decision D11, the spec's own). Neither changes anything but `I`. -/
def Obligations.AddressArithmeticIsUnmasked : Prop :=
  ∀ (x : Reg) (s : State),
    (∃ t, exec (.addI x) s = .next t ∧
      t.i.toNat = (s.i.toNat + (s.reg x).toNat) % 65536 ∧ keepsAllBut [.i] s t) ∧
    (∃ t, exec (.ldF x) s = .next t ∧
      t.i.toNat = 0x050 + 5 * (s.reg x).toNat ∧ keepsAllBut [.i] s t)

/-- `LD B, Vx` inside the space and clear of the font stores the three decimal digits at `I`, `I + 1`, `I + 2`, leaves
every other byte, and changes nothing else, `I` included. -/
def Obligations.BcdStoreWritesThreeDigits : Prop :=
  ∀ (x : Reg) (s : State), inSpace s.i.toNat 3 → ¬ meetsFont s.i.toNat 3 →
    ∃ t, exec (.ldB x) s = .next t ∧
      (t.mem.read s.i.toNat).toNat = (s.reg x).toNat / 100 ∧
      (t.mem.read (s.i.toNat + 1)).toNat = (s.reg x).toNat / 10 % 10 ∧
      (t.mem.read (s.i.toNat + 2)).toNat = (s.reg x).toNat % 10 ∧
      (∀ a, a < s.i.toNat ∨ s.i.toNat + 3 ≤ a → t.mem.read a = s.mem.read a) ∧
      keepsAllBut [.mem] s t

/-- `LD [I], Vx` inside the space and clear of the font stores `V0..VX` at `I .. I + X`, leaves every other byte, and
changes nothing else, `I` included. -/
def Obligations.RegisterDumpStoresTheRange : Prop :=
  ∀ (x : Reg) (s : State), inSpace s.i.toNat (x.val + 1) → ¬ meetsFont s.i.toNat (x.val + 1) →
    ∃ t, exec (.dumpRegs x) s = .next t ∧
      (∀ k : Reg, k.val ≤ x.val → t.mem.read (s.i.toNat + k.val) = s.reg k) ∧
      (∀ a, a < s.i.toNat ∨ s.i.toNat + (x.val + 1) ≤ a → t.mem.read a = s.mem.read a) ∧
      keepsAllBut [.mem] s t

/-- A store that leaves the space or meets the font is reported under its own name and changes nothing, memory included
(decisions D3, D4 and D12, the spec's own). -/
def Obligations.RefusedStoresChangeNothing : Prop :=
  ∀ (x : Reg) (s : State),
    (¬ inSpace s.i.toNat 3 →
      exec (.ldB x) s = .next { s with report := .addressOutOfRange .bcd s.i.toNat 3 }) ∧
    (inSpace s.i.toNat 3 → meetsFont s.i.toNat 3 →
      exec (.ldB x) s = .next { s with report := .fontWrite .bcd s.i.toNat 3 }) ∧
    (¬ inSpace s.i.toNat (x.val + 1) →
      exec (.dumpRegs x) s = .next { s with report := .addressOutOfRange .dump s.i.toNat (x.val + 1) }) ∧
    (inSpace s.i.toNat (x.val + 1) → meetsFont s.i.toNat (x.val + 1) →
      exec (.dumpRegs x) s = .next { s with report := .fontWrite .dump s.i.toNat (x.val + 1) })

/-- `LD Vx, [I]` inside the space loads `V0..VX` from `I .. I + X` and changes nothing else; past the space it is
reported and no register changes (decisions D3 and D4, the spec's own). -/
def Obligations.RegisterLoadReadsTheRange : Prop :=
  ∀ (x : Reg) (s : State),
    (inSpace s.i.toNat (x.val + 1) → ∃ t, exec (.loadRegs x) s = .next t ∧
      (∀ k : Reg, t.reg k = if k.val ≤ x.val then s.mem.read (s.i.toNat + k.val) else s.reg k) ∧
      keepsAllBut [.regs] s t) ∧
    (¬ inSpace s.i.toNat (x.val + 1) →
      exec (.loadRegs x) s = .next { s with report := .addressOutOfRange .loadRegs s.i.toNat (x.val + 1) })

/-- The load is the inverse of the dump: whatever the registers become after a dump that reported nothing, loading the
same range through the same `I` from the memory it left puts the dumped registers back. -/
def Obligations.LoadUndoesDump : Prop :=
  ∀ (x : Reg) (s t u : State), s.report = .ok → exec (.dumpRegs x) s = .next t → t.report = .ok →
    u.mem = t.mem → u.i = t.i →
    ∃ v, exec (.loadRegs x) u = .next v ∧ ∀ k : Reg, k.val ≤ x.val → v.reg k = s.reg k

/-- Where the invariant holds, `LD F, Vx` with a digit in `Vx` points at the five bytes of that digit's glyph in the
parameter `FONT` (20_memory.md R55; nothing is said of the bytes themselves, log 4). -/
def Obligations.GlyphAddressFindsTheGlyph : Prop :=
  ∀ (x : Reg) (s : State), Inv s → (s.reg x).toNat < 16 → ∃ t, exec (.ldF x) s = .next t ∧
    ∀ k, k < 5 → t.mem.read (t.i.toNat + k) = font.getD (5 * (s.reg x).toNat + k) 0

/-- Self-modifying code: when a dump stores over the word at `PC`, the next step runs the stored word (20_memory.md R66,
decision D15, the spec's own). -/
def Obligations.NextStepRunsTheStoredWord : Prop :=
  ∀ (x : Reg) (s t : State) (k : Nat) (hk : k + 1 ≤ x.val) (i : Instr),
    s.report = .ok → exec (.dumpRegs x) s = .next t → t.report = .ok →
    s.pc.toNat = s.i.toNat + k →
    decode (s.reg ⟨k, by omega⟩ ++ s.reg ⟨k + 1, by omega⟩) = some i →
    step t = exec i { t with pc := t.pc + 2, report := .ok }

/-! ## Display (44_display.md) -/

/-- `CLS` puts out all 2048 pixels and changes nothing else. -/
def Obligations.ClearScreenPutsOutEveryPixel : Prop :=
  ∀ s : State, ∃ t, exec .cls s = .next t ∧
    (∀ (r : Fin 32) (c : Fin 64), t.fb[r.val][c.val] = false) ∧ keepsAllBut [.fb] s t

/-- `DRW Vx, Vy, n` whose sprite lies in the space (or has height 0: decision D9, the spec's own) flips exactly the
pixels that a 1 bit of the sprite falls on, each coordinate wrapping on its own; `VF` becomes 1 when one of them was
lit, else 0; every other register and everything else is as before. -/
def Obligations.DrawXorsTheSpriteAndReportsCollision : Prop :=
  ∀ (x y : Reg) (n : Nat) (s : State), n < 16 → (n = 0 ∨ inSpace s.i.toNat n) →
    ∃ t, exec (.drw x y n) s = .next t ∧
      (∀ r c, spriteCovers s x y n r c → t.fb[r.val][c.val] = !s.fb[r.val][c.val]) ∧
      (∀ r c, ¬ spriteCovers s x y n r c → t.fb[r.val][c.val] = s.fb[r.val][c.val]) ∧
      ((∃ r c, spriteCovers s x y n r c ∧ s.fb[r.val][c.val] = true) → t.reg 15 = 1) ∧
      ((∀ r c, spriteCovers s x y n r c → s.fb[r.val][c.val] = false) → t.reg 15 = 0) ∧
      otherRegsSame 15 s t ∧ keepsAllBut [.fb, .regs] s t

/-- A sprite that leaves the space is reported; no pixel changes and `VF` is not written (decision D4, the spec's
own). -/
def Obligations.DrawPastMemoryChangesNothing : Prop :=
  ∀ (x y : Reg) (n : Nat) (s : State), 0 < n → ¬ inSpace s.i.toNat n →
    exec (.drw x y n) s = .next { s with report := .addressOutOfRange .sprite s.i.toNat n }

/-- Drawing a sprite twice at one place restores every pixel, and the second draw reports a collision exactly when the
first lit a pixel. The place is the same when the two coordinates, modulo the screen, are: the first draw writes `VF`, so
with `X` or `Y` equal to 0xF they may differ. Log 13 says how this stands to the spec's vector W4. -/
def Obligations.DrawingTwiceRestoresTheScreen : Prop :=
  ∀ (x y : Reg) (n : Nat) (s t u : State), n < 16 → s.report = .ok →
    exec (.drw x y n) s = .next t → t.report = .ok →
    (t.reg x).toNat % 64 = (s.reg x).toNat % 64 → (t.reg y).toNat % 32 = (s.reg y).toNat % 32 →
    exec (.drw x y n) t = .next u →
    u.fb = s.fb ∧
    (u.reg 15 = 1 ↔ ∃ (r : Fin 32) (c : Fin 64), s.fb[r.val][c.val] = false ∧ t.fb[r.val][c.val] = true)

/-! ## Keypad and timers (45_input_timers.md) -/

/-- `SKP Vx` and `SKNP Vx` with a key index of at most 0xF skip when that key is down, or up, and change nothing else; a
larger index is reported, without a skip (R186, decision D10, the spec's own). -/
def Obligations.KeySkipsTestTheNamedKey : Prop :=
  ∀ (x : Reg) (s : State),
    (∀ k : Fin 16, (s.reg x).toNat = k.val →
      (∃ t, exec (.skp x) s = .next t ∧
        t.pc = (if s.key[k.val] = true then s.pc + 2 else s.pc) ∧ keepsAllBut [.pc] s t) ∧
      (∃ t, exec (.sknp x) s = .next t ∧
        t.pc = (if s.key[k.val] = false then s.pc + 2 else s.pc) ∧ keepsAllBut [.pc] s t)) ∧
    (15 < (s.reg x).toNat →
      exec (.skp x) s = .next { s with report := .addressOutOfRange .keypad (s.reg x).toNat 1 } ∧
      exec (.sknp x) s = .next { s with report := .addressOutOfRange .keypad (s.reg x).toNat 1 })

/-- `LD Vx, K` stores the lowest pressed key in `Vx` and proceeds; with no key pressed it puts `PC` back by 2, so that it
is run again, and changes nothing else. -/
def Obligations.KeyWaitTakesTheLowestKey : Prop :=
  ∀ (x : Reg) (s : State),
    (∀ k : Fin 16, s.key[k.val] = true → (∀ j : Fin 16, j < k → s.key[j.val] = false) →
      ∃ t, exec (.ldVxK x) s = .next t ∧
        (t.reg x).toNat = k.val ∧ otherRegsSame x s t ∧ keepsAllBut [.regs] s t) ∧
    ((∀ k : Fin 16, s.key[k.val] = false) →
      ∃ t, exec (.ldVxK x) s = .next t ∧ t.pc = s.pc - 2 ∧ keepsAllBut [.pc] s t)

/-- While no key is pressed, any number of steps at an `LD Vx, K` leaves the whole state as it was, `PC` included, and
every one of them returns `ok`. -/
def Obligations.KeyWaitHoldsThePc : Prop :=
  ∀ (s : State) (x : Reg) (k : Nat), s.pc.toNat < 0x0FFF →
    decode (s.mem.read s.pc.toNat ++ s.mem.read (s.pc.toNat + 1)) = some (.ldVxK x) →
    (∀ j : Fin 16, s.key[j.val] = false) →
    Sys2Proof.core.run (k + 1) s = .next { s with report := .ok }

/-- The three timer transfers copy between `Vx` and the timer and change nothing else. What R185 adds on the tone is
`TicksCountTheTimersDown`. -/
def Obligations.TimerTransfersCopyOneByte : Prop :=
  ∀ (x : Reg) (s : State),
    (∃ t, exec (.ldVxDT x) s = .next t ∧
      t.reg x = s.dt ∧ otherRegsSame x s t ∧ keepsAllBut [.regs] s t) ∧
    (∃ t, exec (.ldDTVx x) s = .next t ∧ t.dt = s.reg x ∧ keepsAllBut [.dt] s t) ∧
    (∃ t, exec (.ldSTVx x) s = .next t ∧ t.st = s.reg x ∧ keepsAllBut [.st] s t)

/-! ## Whole-machine rules (10_state.md, 20_memory.md) -/

/-- The access matrix of R38, its writes: each element of the state but `PC` (which `OnlyControlInstructionsMovePc`
treats) is written only by the instructions the matrix names for it, a general register only as a named destination, in a
loaded range or as the flag of the six flag writers, and the keypad by none. The last clause is no part of the matrix: it
is about `draws`, the model's own field (log 3, DESIGN CHOICE). -/
def Obligations.EachElementIsWrittenOnlyByItsInstructions : Prop :=
  ∀ (i : Instr) (s t : State), exec i s = .next t →
    t.key = s.key ∧
    (∀ r : Reg, t.reg r = s.reg r ∨
      match i with
      | .ldByte x _ | .addByte x _ | .ldReg x _ | .orReg x _ | .andReg x _ | .xorReg x _ | .rnd x _
      | .ldVxDT x | .ldVxK x => r = x
      | .addReg x _ | .sub x _ | .subn x _ | .shr x _ | .shl x _ => r = x ∨ r = 15
      | .drw _ _ _ => r = 15
      | .loadRegs x => r.val ≤ x.val
      | _ => False) ∧
    (t.mem = s.mem ∨ (∃ x, i = .ldB x) ∨ (∃ x, i = .dumpRegs x)) ∧
    (t.fb = s.fb ∨ i = .cls ∨ (∃ x y n, i = .drw x y n)) ∧
    (t.stack = s.stack ∨ (∃ a, i = .call a)) ∧
    (t.sp = s.sp ∨ (∃ a, i = .call a) ∨ i = .ret) ∧
    (t.i = s.i ∨ (∃ a, i = .ldI a) ∨ (∃ x, i = .addI x) ∨ (∃ x, i = .ldF x)) ∧
    (t.dt = s.dt ∨ (∃ x, i = .ldDTVx x)) ∧
    (t.st = s.st ∨ (∃ x, i = .ldSTVx x)) ∧
    (t.draws = s.draws ∨ (∃ x nn, i = .rnd x nn))

/-- A step never decrements a timer: `DT` and `ST` change only when the step runs `LD DT, Vx` or `LD ST, Vx`, and then to
the register's value; and a step never writes the keypad. -/
def Obligations.StepNeverTicksATimer : Prop :=
  ∀ s t : State, step s = .next t →
    (t.dt = s.dt ∨ ∃ x, decode s.fetchWord = some (.ldDTVx x) ∧ t.dt = s.reg x) ∧
    (t.st = s.st ∨ ∃ x, decode s.fetchWord = some (.ldSTVx x) ∧ t.st = s.reg x) ∧
    t.key = s.key

/-- The font region is never mutated by a step, from any state whatever (decision D12, the spec's own). -/
def Obligations.StepNeverWritesTheFont : Prop :=
  ∀ (s t : State) (a : Nat), step s = .next t → 0x050 ≤ a → a ≤ 0x09F → t.mem.read a = s.mem.read a

/-- Equal memories are equal data: two canonical memories that read the same at every address are the same list. -/
def Obligations.CanonicalMemoriesAreEqualData : Prop :=
  ∀ m n : Memory, m.wf → n.wf → (∀ a, m.read a = n.read a) → m = n

/-! ## The host's operations (60_exceptions.md, 70_reset_and_hazards.md) -/

/-- After `k` ticks each timer has gone down by `k`, never below 0, and nothing else has changed; the tick after them
signals the tone exactly when `ST` is then 1 (decision D22, the spec's own). -/
def Obligations.TicksCountTheTimersDown : Prop :=
  ∀ (k : Nat) (s : State),
    (ticks k s).dt.toNat = s.dt.toNat - k ∧ (ticks k s).st.toNat = s.st.toNat - k ∧
    keepsAllBut [.dt, .st] s (ticks k s) ∧ (ticks k s).v = s.v ∧
    ((tick (ticks k s)).2 = true ↔ s.st.toNat = k + 1)

/-- Timer decay is independent of execution (60_exceptions.md R210, 70_reset_and_hazards.md R247): for a step that runs
none of the three timer transfers, a tick before it and a tick after it come to the same state. -/
def Obligations.TicksCommuteWithStepsThatTouchNoTimer : Prop :=
  ∀ s t : State, step s = .next t →
    (∀ x, decode s.fetchWord ≠ some (.ldVxDT x) ∧ decode s.fetchWord ≠ some (.ldDTVx x) ∧
      decode s.fetchWord ≠ some (.ldSTVx x)) →
    step (tick s).1 = .next (tick t).1

/-- `load` of 1 to 3584 bytes puts byte `b` at 0x200 + `b`, leaves every other byte and all other state, and answers
`ok`. -/
def Obligations.LoadPlacesTheWholeProgram : Prop :=
  ∀ (bytes : List Byte) (s : State), 1 ≤ bytes.length → bytes.length ≤ 3584 →
    (load bytes s).2 = .ok ∧
    (∀ (b : Nat) (hb : b < bytes.length), (load bytes s).1.mem.read (0x200 + b) = bytes[b]) ∧
    (∀ a, a < 0x200 ∨ 0x200 + bytes.length ≤ a → (load bytes s).1.mem.read a = s.mem.read a) ∧
    keepsAllBut [.mem] s (load bytes s).1

/-- `load` of no bytes, or of more than 3584, fails by name and leaves the state unchanged. -/
def Obligations.RefusedLoadsChangeNothing : Prop :=
  ∀ (bytes : List Byte) (s : State),
    (bytes.length = 0 → load bytes s = (s, .loadEmpty)) ∧
    (3584 < bytes.length → load bytes s = (s, .loadTooLarge bytes.length))

/-- The state after construction, element by element (10_state.md R39), every cell of the address space among them. -/
def Obligations.ConstructionValues : Prop :=
  (∀ a, 0x050 ≤ a → a ≤ 0x09F → State.reset.mem.read a = font.getD (a - 0x050) 0) ∧
  (∀ a, a ≤ 0x0FFF → (a < 0x050 ∨ 0x09F < a) → State.reset.mem.read a = 0) ∧
  (∀ r, State.reset.reg r = 0) ∧ State.reset.i = 0 ∧ State.reset.pc = 0x200 ∧ State.reset.sp = 0 ∧
  (∀ k : Fin 16, State.reset.stack[k.val] = 0) ∧ State.reset.dt = 0 ∧ State.reset.st = 0 ∧
  (∀ (r : Fin 32) (c : Fin 64), State.reset.fb[r.val][c.val] = false) ∧
  (∀ k : Fin 16, State.reset.key[k.val] = false)

/-- `reset()` restores the constructed state from any state, but leaves the keypad as the host set it (decision D19, the
spec's own); the model's own `draws` stays and `report` is `ok` (log 10). -/
def Obligations.HostResetKeepsTheKeypad : Prop :=
  ∀ s : State, (hostReset s).key = s.key ∧ (hostReset s).draws = s.draws ∧
    keepsAllBut [.key, .draws] State.reset (hostReset s) ∧
    (hostReset s).mem = State.reset.mem ∧ (hostReset s).v = State.reset.v

/-- An infinite run (60_exceptions.md R226): whatever the host's sequence of operations, it has a state before each of
them, each state is what the operation left of the one before it, and the states are those at the ends of its finite
runs. When the host only steps, they are the states of the engine's own run. -/
def Obligations.InfiniteRunsGoOnThroughTheirFiniteRuns : Prop :=
  (∀ (ops : Nat → HostOp) (s : State) (k : Nat), ∃ t u,
    infiniteRun ops s k = .next t ∧ infiniteRun ops s (k + 1) = .next u ∧ hostStep (ops k) t = .next u ∧
    runHost (firstOps ops k) s = .next t) ∧
  (∀ (s : State) (k : Nat), infiniteRun (fun _ => .step) s k = Sys2Proof.core.run k s)

/-! ## Invariants -/

/-- The invariant holds after construction. -/
def Obligations.ConstructionMeetsTheInvariant : Prop := Inv State.reset

/-- Every step keeps the invariant: memory stays canonical, the font as constructed, and `PC` below 0x1100 (10_state.md
R29, an inference of the spec's own). -/
def Obligations.StepKeepsTheInvariant : Prop := ∀ s t : State, Inv s → step s = .next t → Inv t

/-- Every finite run of host operations, in any order, completes from a state that meets the invariant and ends in one
that meets it (60_exceptions.md R225, R226, decision D14, the spec's own). -/
def Obligations.EveryHostRunKeepsTheInvariant : Prop :=
  ∀ (ops : List HostOp) (s : State), Inv s → ∃ t, runHost ops s = .next t ∧ Inv t
end

