-- ==== Sys2Proof/Laws/Decode.lean ====
section
/-! SUPPORT. The fields of a packed word, and a word as its fields packed: what decoding and encoding rest on (30_encoding.md R71). -/

namespace Sys2Proof

@[simp] theorem regBits_toFin (x : Reg) : (regBits x).toFin = x := rfl

/-! ## The bits of the three packed formats -/

theorem getLsbD_packA (op : Nibble) (a : Addr) (i : Nat) :
    (packA op a).getLsbD i = if i < 12 then a.getLsbD i else op.getLsbD (i - 12) :=
  BitVec.getLsbD_append

theorem getLsbD_packXB (op : Nibble) (x : Reg) (b : Byte) (i : Nat) :
    (packXB op x b).getLsbD i =
      if i < 12 then (if i < 8 then b.getLsbD i else (regBits x).getLsbD (i - 8))
      else op.getLsbD (i - 12) := by
  have h : (regBits x ++ b).getLsbD i =
      if i < 8 then b.getLsbD i else (regBits x).getLsbD (i - 8) := BitVec.getLsbD_append
  rw [← h]
  exact BitVec.getLsbD_append

theorem getLsbD_packXYN (op : Nibble) (x y : Reg) (n : Nibble) (i : Nat) :
    (packXYN op x y n).getLsbD i =
      if i < 12 then
        (if i < 8 then (if i < 4 then n.getLsbD i else (regBits y).getLsbD (i - 4))
         else (regBits x).getLsbD (i - 8))
      else op.getLsbD (i - 12) := by
  have h4 : (regBits y ++ n).getLsbD i =
      if i < 4 then n.getLsbD i else (regBits y).getLsbD (i - 4) := BitVec.getLsbD_append
  have h8 : (regBits x ++ (regBits y ++ n)).getLsbD i =
      if i < 8 then (regBits y ++ n).getLsbD i else (regBits x).getLsbD (i - 8) :=
    BitVec.getLsbD_append
  rw [← h4, ← h8]
  exact BitVec.getLsbD_append

/-! ## Fields of the three packed formats -/

@[simp] theorem fieldOp_packA (op : Nibble) (a : Addr) : fieldOp (packA op a) = op := by
  apply BitVec.eq_of_getLsbD_eq
  intro i hi
  simp [fieldOp, getLsbD_packA, hi]

@[simp] theorem fieldNNN_packA (op : Nibble) (a : Addr) : fieldNNN (packA op a) = a := by
  apply BitVec.eq_of_getLsbD_eq
  intro i hi
  simp [fieldNNN, getLsbD_packA, hi]

@[simp] theorem fieldOp_packXB (op : Nibble) (x : Reg) (b : Byte) : fieldOp (packXB op x b) = op := by
  apply BitVec.eq_of_getLsbD_eq
  intro i hi
  simp [fieldOp, getLsbD_packXB, hi]

@[simp] theorem fieldX_packXB (op : Nibble) (x : Reg) (b : Byte) : fieldX (packXB op x b) = x := by
  have : (packXB op x b).extractLsb' 8 4 = regBits x := by
    apply BitVec.eq_of_getLsbD_eq
    intro i hi
    simp [getLsbD_packXB, hi, show 8 + i < 12 by omega]
  simp [fieldX, this]

@[simp] theorem fieldNN_packXB (op : Nibble) (x : Reg) (b : Byte) : fieldNN (packXB op x b) = b := by
  apply BitVec.eq_of_getLsbD_eq
  intro i hi
  simp [fieldNN, getLsbD_packXB, hi, show i < 12 by omega]

@[simp] theorem fieldOp_packXYN (op : Nibble) (x y : Reg) (n : Nibble) :
    fieldOp (packXYN op x y n) = op := by
  apply BitVec.eq_of_getLsbD_eq
  intro i hi
  simp [fieldOp, getLsbD_packXYN, hi]

@[simp] theorem fieldX_packXYN (op : Nibble) (x y : Reg) (n : Nibble) :
    fieldX (packXYN op x y n) = x := by
  have : (packXYN op x y n).extractLsb' 8 4 = regBits x := by
    apply BitVec.eq_of_getLsbD_eq
    intro i hi
    simp [getLsbD_packXYN, hi, show 8 + i < 12 by omega]
  simp [fieldX, this]

@[simp] theorem fieldY_packXYN (op : Nibble) (x y : Reg) (n : Nibble) :
    fieldY (packXYN op x y n) = y := by
  have : (packXYN op x y n).extractLsb' 4 4 = regBits y := by
    apply BitVec.eq_of_getLsbD_eq
    intro i hi
    simp [getLsbD_packXYN, hi, show 4 + i < 12 by omega, show 4 + i < 8 by omega]
  simp [fieldY, this]

@[simp] theorem fieldN_packXYN (op : Nibble) (x y : Reg) (n : Nibble) :
    fieldN (packXYN op x y n) = n := by
  apply BitVec.eq_of_getLsbD_eq
  intro i hi
  simp [fieldN, getLsbD_packXYN, hi, show i < 12 by omega, show i < 8 by omega]

/-! ## A word is its fields packed -/

theorem packA_fields (w : Word) : packA (fieldOp w) (fieldNNN w) = w := by
  apply BitVec.eq_of_getLsbD_eq
  intro i hi
  rw [getLsbD_packA]
  by_cases h : i < 12
  · simp [fieldNNN, h]
  · simp [fieldOp, h, show i - 12 < 4 by omega, show 12 + (i - 12) = i by omega]

theorem packXB_fields (w : Word) : packXB (fieldOp w) (fieldX w) (fieldNN w) = w := by
  have hx : regBits (fieldX w) = w.extractLsb' 8 4 := rfl
  apply BitVec.eq_of_getLsbD_eq
  intro i hi
  rw [getLsbD_packXB, hx]
  by_cases h : i < 12
  · by_cases h8 : i < 8
    · simp [fieldNN, h, h8]
    · simp [h, h8, show i - 8 < 4 by omega, show 8 + (i - 8) = i by omega]
  · simp [fieldOp, h, show i - 12 < 4 by omega, show 12 + (i - 12) = i by omega]

theorem packXYN_fields (w : Word) : packXYN (fieldOp w) (fieldX w) (fieldY w) (fieldN w) = w := by
  have hx : regBits (fieldX w) = w.extractLsb' 8 4 := rfl
  have hy : regBits (fieldY w) = w.extractLsb' 4 4 := rfl
  apply BitVec.eq_of_getLsbD_eq
  intro i hi
  rw [getLsbD_packXYN, hx, hy]
  by_cases h : i < 12
  · by_cases h8 : i < 8
    · by_cases h4 : i < 4
      · simp [fieldN, h, h8, h4]
      · simp [h, h8, h4, show i - 4 < 4 by omega, show 4 + (i - 4) = i by omega]
    · simp [h, h8, show i - 8 < 4 by omega, show 8 + (i - 8) = i by omega]
  · simp [fieldOp, h, show i - 12 < 4 by omega, show 12 + (i - 12) = i by omega]

/-! ## What each top nibble decodes to (R72) -/

theorem decode_op0 (w : Word) (h : fieldOp w = 0x0#4) : decode w = decodeFamily0 w := by simp [decode, h]
theorem decode_op1 (w : Word) (h : fieldOp w = 0x1#4) : decode w = some (.jp (fieldNNN w)) := by simp [decode, h]
theorem decode_op2 (w : Word) (h : fieldOp w = 0x2#4) : decode w = some (.call (fieldNNN w)) := by simp [decode, h]
theorem decode_op3 (w : Word) (h : fieldOp w = 0x3#4) : decode w = some (.seByte (fieldX w) (fieldNN w)) := by simp [decode, h]
theorem decode_op4 (w : Word) (h : fieldOp w = 0x4#4) : decode w = some (.sneByte (fieldX w) (fieldNN w)) := by simp [decode, h]
theorem decode_op5 (w : Word) (h : fieldOp w = 0x5#4) : decode w = decodeIfNZero w (.seReg (fieldX w) (fieldY w)) := by simp [decode, h]
theorem decode_op6 (w : Word) (h : fieldOp w = 0x6#4) : decode w = some (.ldByte (fieldX w) (fieldNN w)) := by simp [decode, h]
theorem decode_op7 (w : Word) (h : fieldOp w = 0x7#4) : decode w = some (.addByte (fieldX w) (fieldNN w)) := by simp [decode, h]
theorem decode_op8 (w : Word) (h : fieldOp w = 0x8#4) : decode w = decodeFamily8 w := by simp [decode, h]
theorem decode_op9 (w : Word) (h : fieldOp w = 0x9#4) : decode w = decodeIfNZero w (.sneReg (fieldX w) (fieldY w)) := by simp [decode, h]
theorem decode_opA (w : Word) (h : fieldOp w = 0xA#4) : decode w = some (.ldI (fieldNNN w)) := by simp [decode, h]
theorem decode_opB (w : Word) (h : fieldOp w = 0xB#4) : decode w = some (.jpV0 (fieldNNN w)) := by simp [decode, h]
theorem decode_opC (w : Word) (h : fieldOp w = 0xC#4) : decode w = some (.rnd (fieldX w) (fieldNN w)) := by simp [decode, h]
theorem decode_opD (w : Word) (h : fieldOp w = 0xD#4) : decode w = some (.drw (fieldX w) (fieldY w) (fieldN w).toNat) := by simp [decode, h]
theorem decode_opE (w : Word) (h : fieldOp w = 0xE#4) : decode w = decodeFamilyE w := by simp [decode, h]
theorem decode_opF (w : Word) (h : fieldOp w = 0xF#4) : decode w = decodeFamilyF w := by simp [decode, h]

/-- The sixteen families. -/
theorem nibble_cases (n : Nibble) :
    n = 0x0 ∨ n = 0x1 ∨ n = 0x2 ∨ n = 0x3 ∨ n = 0x4 ∨ n = 0x5 ∨ n = 0x6 ∨ n = 0x7 ∨
    n = 0x8 ∨ n = 0x9 ∨ n = 0xA ∨ n = 0xB ∨ n = 0xC ∨ n = 0xD ∨ n = 0xE ∨ n = 0xF := by
  revert n; decide

/-- The two bytes of a word make the word again (20_memory.md R52). -/
theorem wordOfBytes_halves (w : Word) : wordOfBytes (w.extractLsb' 8 8) (w.extractLsb' 0 8) = w := by
  apply BitVec.eq_of_getLsbD_eq
  intro i hi
  rw [wordOfBytes, BitVec.getLsbD_append]
  by_cases h : i < 8
  · simp [h]
  · simp [h, show i - 8 < 8 by omega, show 8 + (i - 8) = i by omega]

end Sys2Proof
end

