-- ==== Sys2Proof/Laws/Memory.lean ====
section
/-! SUPPORT. The memory array: a read after a write, and that every memory operation keeps the canonical form and leaves the font alone outside the font region. -/

namespace Sys2Proof.Machine

/-! ## Reading -/

theorem erase_cons (c : Host.Cell) (m : Memory) (a : Nat) :
    Memory.erase (c :: m) a = if c.1 = a then Memory.erase m a else c :: Memory.erase m a := by
  by_cases h : c.1 = a <;> simp [Memory.erase, h]

theorem read_erase_self (m : Memory) (a : Nat) : (Memory.erase m a).read a = initialByte a := by
  induction m with
  | nil => rfl
  | cons c m ih => by_cases h : c.1 = a <;> simp [erase_cons, h, Memory.read, ih]

theorem read_erase_of_ne (m : Memory) {a b : Nat} (h : b ≠ a) : (Memory.erase m a).read b = m.read b := by
  induction m with
  | nil => rfl
  | cons c m ih => by_cases hc : c.1 = a <;> simp [erase_cons, hc, Memory.read, ih, Ne.symm h]

theorem read_insert (m : Memory) (a b : Nat) (x : Byte) (hm : ∀ c ∈ m, c.1 ≠ a) :
    (Memory.insert m a x).read b = if b = a then x else m.read b := by
  induction m with
  | nil => simp [Memory.insert, Memory.read, eq_comm]
  | cons c m ih =>
    have hc : c.1 ≠ a := hm c (by simp)
    have ih := ih fun d hd => hm d (by simp [hd])
    unfold Memory.insert
    split
    · simp [Memory.read, eq_comm]
    · by_cases hb : b = a
      · subst hb; simp [Memory.read, ih, hc]
      · simp [Memory.read, ih, hb]

theorem mem_erase {m : Memory} {a : Nat} {c : Host.Cell} : c ∈ Memory.erase m a ↔ c ∈ m ∧ c.1 ≠ a := by
  simp [Memory.erase]

/-- A write inside the space gives the value at its address and leaves every other address alone. -/
theorem read_write (m : Memory) {a : Nat} (b : Nat) (x : Byte) (ha : a ≤ Config.memAddrMax) :
    (m.write a x).read b = if b = a then x else m.read b := by
  unfold Memory.write
  rw [if_pos ha]
  split
  · next hx =>
    by_cases hb : b = a
    · subst hb; simp [read_erase_self, hx]
    · simp [hb, read_erase_of_ne]
  · rw [read_insert _ _ _ _ fun c hc => (mem_erase.1 hc).2]
    by_cases hb : b = a <;> simp [hb, read_erase_of_ne]

theorem read_write_self (m : Memory) {a : Nat} (x : Byte) (ha : a ≤ Config.memAddrMax) :
    (m.write a x).read a = x := by simp [read_write, ha]

theorem read_write_of_ne (m : Memory) {a b : Nat} (x : Byte) (h : b ≠ a) :
    (m.write a x).read b = m.read b := by
  by_cases ha : a ≤ Config.memAddrMax
  · simp [read_write, ha, h]
  · simp [Memory.write, ha]

/-- A run of writes leaves every address outside it alone. -/
theorem read_writeBytes_outside (m : Memory) (a : Nat) (xs : List Byte) {b : Nat}
    (h : b < a ∨ a + xs.length ≤ b) : (m.writeBytes a xs).read b = m.read b := by
  induction xs generalizing m a with
  | nil => rfl
  | cons x xs ih =>
    simp only [List.length_cons] at h
    rw [Memory.writeBytes, ih _ _ (by omega), read_write_of_ne _ _ (by omega)]

/-- A run of writes inside the space puts byte `k` at address `a + k`. -/
theorem read_writeBytes_inside (m : Memory) (a : Nat) (xs : List Byte) (k : Nat) (hk : k < xs.length)
    (ha : a + xs.length ≤ Config.memAddrMax + 1) : (m.writeBytes a xs).read (a + k) = xs[k] := by
  induction xs generalizing m a k with
  | nil => simp at hk
  | cons x xs ih =>
    simp only [List.length_cons] at hk ha
    rw [Memory.writeBytes]
    cases k with
    | zero =>
      rw [read_writeBytes_outside _ _ _ (by omega)]
      simpa using read_write_self m x (by omega)
    | succ k =>
      have := ih (m.write a x) (a + 1) k (by omega) (by omega)
      simpa [Nat.add_assoc, Nat.add_comm 1 k] using this

/-! ## The canonical form -/

theorem wf_nil : Memory.wf [] := by simp [Memory.wf]

theorem wf_erase {m : Memory} (h : m.wf) (a : Nat) : (Memory.erase m a).wf :=
  ⟨h.1.filter _, fun c hc => h.2 c (mem_erase.1 hc).1⟩

theorem mem_insert {m : Memory} {a : Nat} {x : Byte} {c : Host.Cell} :
    c ∈ Memory.insert m a x ↔ c = (a, x) ∨ c ∈ m := by
  induction m with
  | nil => simp [Memory.insert]
  | cons d m ih =>
    unfold Memory.insert
    split
    · simp
    · simp only [List.mem_cons, ih]; tauto

theorem wf_insert {m : Memory} (h : m.wf) {a : Nat} {x : Byte} (hm : ∀ c ∈ m, c.1 ≠ a)
    (ha : a ≤ Config.memAddrMax) (hx : x ≠ initialByte a) : (Memory.insert m a x).wf := by
  refine ⟨?_, fun c hc => ?_⟩
  · have hp := h.1
    clear h hx
    induction m with
    | nil => simp [Memory.insert]
    | cons d m ih =>
      have hd : d.1 ≠ a := hm d (by simp)
      rw [List.pairwise_cons] at hp
      unfold Memory.insert
      split
      · next hlt =>
        refine List.pairwise_cons.2 ⟨fun c hc => ?_, List.pairwise_cons.2 hp⟩
        rcases List.mem_cons.1 hc with rfl | hc
        · exact hlt
        · exact Nat.lt_trans hlt (hp.1 c hc)
      · next hge =>
        refine List.pairwise_cons.2 ⟨fun c hc => ?_, ih (fun c hc => hm c (by simp [hc])) hp.2⟩
        rcases mem_insert.1 hc with rfl | hc
        · simp only; omega
        · exact hp.1 c hc
  · rcases mem_insert.1 hc with rfl | hc
    · exact ⟨ha, hx⟩
    · exact h.2 c hc

theorem wf_write {m : Memory} (h : m.wf) (a : Nat) (x : Byte) : (m.write a x).wf := by
  unfold Memory.write
  split
  · next ha =>
    split
    · exact wf_erase h a
    · next hx => exact wf_insert (wf_erase h a) (fun c hc => (mem_erase.1 hc).2) ha hx
  · exact h

theorem wf_writeBytes {m : Memory} (h : m.wf) (a : Nat) (xs : List Byte) : (m.writeBytes a xs).wf := by
  induction xs generalizing m a with
  | nil => exact h
  | cons x xs ih => exact ih (wf_write h a x) (a + 1)

/-! ## The font -/

theorem fontIntact_nil : fontIntact [] := by simp [fontIntact]

theorem fontIntact_write {m : Memory} (h : fontIntact m) {a : Nat} (ha : inFont a = false) (x : Byte) :
    fontIntact (m.write a x) := by
  have he : fontIntact (Memory.erase m a) := fun c hc => h c (mem_erase.1 hc).1
  unfold Memory.write
  split
  · split
    · exact he
    · intro c hc
      rcases mem_insert.1 hc with rfl | hc
      · exact ha
      · exact he c hc
  · exact h

theorem fontIntact_writeBytes {m : Memory} (h : fontIntact m) (a : Nat) (xs : List Byte)
    (ha : ∀ k, k < xs.length → inFont (a + k) = false) : fontIntact (m.writeBytes a xs) := by
  induction xs generalizing m a with
  | nil => exact h
  | cons x xs ih =>
    refine ih (fontIntact_write h (by simpa using ha 0 (by simp)) x) (a + 1) fun k hk => ?_
    have := ha (k + 1) (by simpa using hk)
    rwa [Nat.add_assoc, Nat.add_comm 1 k]

/-- Where the font is intact, its cells read as constructed. -/
theorem read_font {m : Memory} (h : fontIntact m) {a : Nat} (ha : inFont a = true) :
    m.read a = initialByte a := by
  induction m with
  | nil => rfl
  | cons c m ih =>
    have hc : c.1 ≠ a := by
      intro e
      have := h c (by simp)
      rw [e, ha] at this
      exact absurd this (by simp)
    rw [Memory.read, if_neg hc]
    exact ih fun d hd => h d (by simp [hd])

end Sys2Proof.Machine
end

