-- ==== Sys2Proof/Laws/State.lean ====
section
/-! SUPPORT. What each state update does to each field: one lemma per field and update, so that no proof unfolds a record update. -/

namespace Sys2Proof.Machine

variable (s : State)

/-! ## Reading a register after an update -/

theorem reg_setReg (x q : Reg) (b : Byte) : (s.setReg x b).reg q = if q = x then b else s.reg q := by
  unfold State.reg State.setReg
  by_cases h : q = x
  · subst h; simp
  · have : x.val ≠ q.val := fun e => h (Fin.ext e.symm)
    simp [h, this]

@[simp] theorem reg_setReg_self (x : Reg) (b : Byte) : (s.setReg x b).reg x = b := by simp [reg_setReg]

theorem reg_setReg_of_ne {x q : Reg} (h : q ≠ x) (b : Byte) : (s.setReg x b).reg q = s.reg q := by
  simp [reg_setReg, h]

theorem reg_setFlag (q : Reg) (f : Bool) :
    (s.setFlag f).reg q = if q = flagReg then flagByte f else s.reg q := reg_setReg s flagReg q _

/-- The flag is written last, so it stays when the destination is register 0xF (42_alu.md R121). -/
theorem reg_setResultFlag (x q : Reg) (b : Byte) (f : Bool) :
    (s.setResultFlag x b f).reg q =
      if q = flagReg then flagByte f else if q = x then b else s.reg q := by
  simp [State.setResultFlag, reg_setFlag, reg_setReg]

/-- Two states with the same registers have the same register file. -/
theorem v_eq_of_reg {s t : State} (h : ∀ r, t.reg r = s.reg r) : t.v = s.v := by
  apply Vector.ext
  intro k hk
  exact h ⟨k, hk⟩

/-! ## setReg -/

@[simp] theorem setReg_mem (x : Reg) (b : Byte) : (s.setReg x b).mem = s.mem := rfl
@[simp] theorem setReg_i (x : Reg) (b : Byte) : (s.setReg x b).i = s.i := rfl
@[simp] theorem setReg_pc (x : Reg) (b : Byte) : (s.setReg x b).pc = s.pc := rfl
@[simp] theorem setReg_stack (x : Reg) (b : Byte) : (s.setReg x b).stack = s.stack := rfl
@[simp] theorem setReg_sp (x : Reg) (b : Byte) : (s.setReg x b).sp = s.sp := rfl
@[simp] theorem setReg_dt (x : Reg) (b : Byte) : (s.setReg x b).dt = s.dt := rfl
@[simp] theorem setReg_st (x : Reg) (b : Byte) : (s.setReg x b).st = s.st := rfl
@[simp] theorem setReg_fb (x : Reg) (b : Byte) : (s.setReg x b).fb = s.fb := rfl
@[simp] theorem setReg_key (x : Reg) (b : Byte) : (s.setReg x b).key = s.key := rfl
@[simp] theorem setReg_draws (x : Reg) (b : Byte) : (s.setReg x b).draws = s.draws := rfl
@[simp] theorem setReg_report (x : Reg) (b : Byte) : (s.setReg x b).report = s.report := rfl

/-! ## setFlag -/

@[simp] theorem setFlag_mem (f : Bool) : (s.setFlag f).mem = s.mem := rfl
@[simp] theorem setFlag_i (f : Bool) : (s.setFlag f).i = s.i := rfl
@[simp] theorem setFlag_pc (f : Bool) : (s.setFlag f).pc = s.pc := rfl
@[simp] theorem setFlag_stack (f : Bool) : (s.setFlag f).stack = s.stack := rfl
@[simp] theorem setFlag_sp (f : Bool) : (s.setFlag f).sp = s.sp := rfl
@[simp] theorem setFlag_dt (f : Bool) : (s.setFlag f).dt = s.dt := rfl
@[simp] theorem setFlag_st (f : Bool) : (s.setFlag f).st = s.st := rfl
@[simp] theorem setFlag_fb (f : Bool) : (s.setFlag f).fb = s.fb := rfl
@[simp] theorem setFlag_key (f : Bool) : (s.setFlag f).key = s.key := rfl
@[simp] theorem setFlag_draws (f : Bool) : (s.setFlag f).draws = s.draws := rfl
@[simp] theorem setFlag_report (f : Bool) : (s.setFlag f).report = s.report := rfl

/-! ## setResultFlag -/

@[simp] theorem setResultFlag_mem (x : Reg) (b : Byte) (f : Bool) : (s.setResultFlag x b f).mem = s.mem := rfl
@[simp] theorem setResultFlag_i (x : Reg) (b : Byte) (f : Bool) : (s.setResultFlag x b f).i = s.i := rfl
@[simp] theorem setResultFlag_pc (x : Reg) (b : Byte) (f : Bool) : (s.setResultFlag x b f).pc = s.pc := rfl
@[simp] theorem setResultFlag_stack (x : Reg) (b : Byte) (f : Bool) : (s.setResultFlag x b f).stack = s.stack := rfl
@[simp] theorem setResultFlag_sp (x : Reg) (b : Byte) (f : Bool) : (s.setResultFlag x b f).sp = s.sp := rfl
@[simp] theorem setResultFlag_dt (x : Reg) (b : Byte) (f : Bool) : (s.setResultFlag x b f).dt = s.dt := rfl
@[simp] theorem setResultFlag_st (x : Reg) (b : Byte) (f : Bool) : (s.setResultFlag x b f).st = s.st := rfl
@[simp] theorem setResultFlag_fb (x : Reg) (b : Byte) (f : Bool) : (s.setResultFlag x b f).fb = s.fb := rfl
@[simp] theorem setResultFlag_key (x : Reg) (b : Byte) (f : Bool) : (s.setResultFlag x b f).key = s.key := rfl
@[simp] theorem setResultFlag_draws (x : Reg) (b : Byte) (f : Bool) : (s.setResultFlag x b f).draws = s.draws := rfl
@[simp] theorem setResultFlag_report (x : Reg) (b : Byte) (f : Bool) : (s.setResultFlag x b f).report = s.report := rfl

/-! ## jump -/

@[simp] theorem jump_mem (w : Word) : (s.jump w).mem = s.mem := rfl
@[simp] theorem jump_i (w : Word) : (s.jump w).i = s.i := rfl
@[simp] theorem jump_stack (w : Word) : (s.jump w).stack = s.stack := rfl
@[simp] theorem jump_sp (w : Word) : (s.jump w).sp = s.sp := rfl
@[simp] theorem jump_dt (w : Word) : (s.jump w).dt = s.dt := rfl
@[simp] theorem jump_st (w : Word) : (s.jump w).st = s.st := rfl
@[simp] theorem jump_fb (w : Word) : (s.jump w).fb = s.fb := rfl
@[simp] theorem jump_key (w : Word) : (s.jump w).key = s.key := rfl
@[simp] theorem jump_draws (w : Word) : (s.jump w).draws = s.draws := rfl
@[simp] theorem jump_report (w : Word) : (s.jump w).report = s.report := rfl
@[simp] theorem jump_v (w : Word) : (s.jump w).v = s.v := rfl

@[simp] theorem jump_pc (w : Word) : (s.jump w).pc = w := rfl
@[simp] theorem jump_reg (w : Word) (r : Reg) : (s.jump w).reg r = s.reg r := rfl

/-! ## skipIf -/

@[simp] theorem skipIf_mem (c : Bool) : (s.skipIf c).mem = s.mem := by cases c <;> rfl
@[simp] theorem skipIf_i (c : Bool) : (s.skipIf c).i = s.i := by cases c <;> rfl
@[simp] theorem skipIf_stack (c : Bool) : (s.skipIf c).stack = s.stack := by cases c <;> rfl
@[simp] theorem skipIf_sp (c : Bool) : (s.skipIf c).sp = s.sp := by cases c <;> rfl
@[simp] theorem skipIf_dt (c : Bool) : (s.skipIf c).dt = s.dt := by cases c <;> rfl
@[simp] theorem skipIf_st (c : Bool) : (s.skipIf c).st = s.st := by cases c <;> rfl
@[simp] theorem skipIf_fb (c : Bool) : (s.skipIf c).fb = s.fb := by cases c <;> rfl
@[simp] theorem skipIf_key (c : Bool) : (s.skipIf c).key = s.key := by cases c <;> rfl
@[simp] theorem skipIf_draws (c : Bool) : (s.skipIf c).draws = s.draws := by cases c <;> rfl
@[simp] theorem skipIf_report (c : Bool) : (s.skipIf c).report = s.report := by cases c <;> rfl
@[simp] theorem skipIf_v (c : Bool) : (s.skipIf c).v = s.v := by cases c <;> rfl

@[simp] theorem skipIf_pc (c : Bool) : (s.skipIf c).pc = if c then s.pc + 2 else s.pc := by cases c <;> rfl
@[simp] theorem skipIf_reg (c : Bool) (r : Reg) : (s.skipIf c).reg r = s.reg r := by cases c <;> rfl

/-! ## fetched -/

@[simp] theorem fetched_mem  : (s.fetched).mem = s.mem := rfl
@[simp] theorem fetched_i  : (s.fetched).i = s.i := rfl
@[simp] theorem fetched_stack  : (s.fetched).stack = s.stack := rfl
@[simp] theorem fetched_sp  : (s.fetched).sp = s.sp := rfl
@[simp] theorem fetched_dt  : (s.fetched).dt = s.dt := rfl
@[simp] theorem fetched_st  : (s.fetched).st = s.st := rfl
@[simp] theorem fetched_fb  : (s.fetched).fb = s.fb := rfl
@[simp] theorem fetched_key  : (s.fetched).key = s.key := rfl
@[simp] theorem fetched_draws  : (s.fetched).draws = s.draws := rfl
@[simp] theorem fetched_v  : (s.fetched).v = s.v := rfl

@[simp] theorem fetched_pc : s.fetched.pc = s.pc + 2 := rfl
@[simp] theorem fetched_report : s.fetched.report = .ok := rfl
@[simp] theorem fetched_reg (r : Reg) : s.fetched.reg r = s.reg r := rfl

/-! ## drawByte -/

@[simp] theorem drawByte_mem  : (s.drawByte.2).mem = s.mem := rfl
@[simp] theorem drawByte_i  : (s.drawByte.2).i = s.i := rfl
@[simp] theorem drawByte_pc  : (s.drawByte.2).pc = s.pc := rfl
@[simp] theorem drawByte_stack  : (s.drawByte.2).stack = s.stack := rfl
@[simp] theorem drawByte_sp  : (s.drawByte.2).sp = s.sp := rfl
@[simp] theorem drawByte_dt  : (s.drawByte.2).dt = s.dt := rfl
@[simp] theorem drawByte_st  : (s.drawByte.2).st = s.st := rfl
@[simp] theorem drawByte_fb  : (s.drawByte.2).fb = s.fb := rfl
@[simp] theorem drawByte_key  : (s.drawByte.2).key = s.key := rfl
@[simp] theorem drawByte_report  : (s.drawByte.2).report = s.report := rfl
@[simp] theorem drawByte_v  : (s.drawByte.2).v = s.v := rfl

@[simp] theorem drawByte_fst : s.drawByte.1 = Config.random8 s.draws := rfl
@[simp] theorem drawByte_draws : s.drawByte.2.draws = s.draws + 1 := rfl
@[simp] theorem drawByte_reg (r : Reg) : s.drawByte.2.reg r = s.reg r := rfl

/-! ## Field updates written as records leave the registers alone -/

@[simp] theorem reg_withMem (m : Memory) (r : Reg) : ({ s with mem := m } : State).reg r = s.reg r := rfl
@[simp] theorem reg_withI (w : Word) (r : Reg) : ({ s with i := w } : State).reg r = s.reg r := rfl
@[simp] theorem reg_withPc (w : Word) (r : Reg) : ({ s with pc := w } : State).reg r = s.reg r := rfl
@[simp] theorem reg_withDt (b : Byte) (r : Reg) : ({ s with dt := b } : State).reg r = s.reg r := rfl
@[simp] theorem reg_withSt (b : Byte) (r : Reg) : ({ s with st := b } : State).reg r = s.reg r := rfl
@[simp] theorem reg_withFb (f : Framebuffer) (r : Reg) : ({ s with fb := f } : State).reg r = s.reg r := rfl
@[simp] theorem reg_withReport (e : Report) (r : Reg) : ({ s with report := e } : State).reg r = s.reg r := rfl
@[simp] theorem reg_withStack (k : Vector Word 16) (n : Fin 17) (r : Reg) :
    ({ s with stack := k, sp := n } : State).reg r = s.reg r := rfl

end Sys2Proof.Machine
end

