-- ==== Sys2Proof/Laws/Ops.lean ====
section
/-! SUPPORT. One lemma for each shared operation: what it can do, for callers to cite instead of unfolding it. -/

namespace Sys2Proof.Machine

/-! ## Reporting -/

/-- Everything a checked operation can do. -/
theorem attempt_next {α : Type} {s t : State} {c : Except Report α} {k : α → StepResult}
    (h : attempt s c k = .next t) :
    (∃ e, c = .error e ∧ t = { s with report := e }) ∨ (∃ a, c = .ok a ∧ k a = .next t) := by
  cases c with
  | error e => exact .inl ⟨e, rfl, by simpa [attempt, raise, eq_comm] using h⟩
  | ok a => exact .inr ⟨a, rfl, h⟩

@[simp] theorem attempt_ok {α : Type} (s : State) (a : α) (k : α → StepResult) :
    attempt s (.ok a) k = k a := rfl

@[simp] theorem attempt_error {α : Type} (s : State) (e : Report) (k : α → StepResult) :
    attempt s (.error e) k = .next { s with report := e } := rfl

/-- A checked operation whose continuation completes always completes. -/
theorem attempt_completes {α : Type} (s : State) (c : Except Report α) {k : α → StepResult}
    (h : ∀ a, ∃ t, k a = .next t) : ∃ t, attempt s c k = .next t := by
  cases c with
  | error e => exact ⟨_, rfl⟩
  | ok a => exact h a

/-! ## Checks -/

theorem checkRead_cases (kind : AccessKind) (a n : Nat) :
    (a + n - 1 ≤ Config.memAddrMax ∧ checkRead kind a n = .ok ()) ∨
    (Config.memAddrMax < a + n - 1 ∧ checkRead kind a n = .error (.addressOutOfRange kind a n)) := by
  unfold checkRead
  split
  · exact .inr ⟨by assumption, rfl⟩
  · exact .inl ⟨by omega, rfl⟩

theorem checkWrite_cases (kind : AccessKind) (a n : Nat) :
    (a + n - 1 ≤ Config.memAddrMax ∧ (Config.fontEnd < a ∨ a + n - 1 < Config.fontBase) ∧
      checkWrite kind a n = .ok ()) ∨
    (Config.memAddrMax < a + n - 1 ∧ checkWrite kind a n = .error (.addressOutOfRange kind a n)) ∨
    (a + n - 1 ≤ Config.memAddrMax ∧ a ≤ Config.fontEnd ∧ Config.fontBase ≤ a + n - 1 ∧
      checkWrite kind a n = .error (.fontWrite kind a n)) := by
  unfold checkWrite
  split
  · exact .inr (.inl ⟨by assumption, rfl⟩)
  · split
    · next h => exact .inr (.inr ⟨by omega, h.1, h.2, rfl⟩)
    · next h => exact .inl ⟨by omega, by omega, rfl⟩

theorem checkSprite_cases (a n : Nat) :
    ((n = 0 ∨ a + n - 1 ≤ Config.memAddrMax) ∧ checkSprite a n = .ok ()) ∨
    (n ≠ 0 ∧ Config.memAddrMax < a + n - 1 ∧
      checkSprite a n = .error (.addressOutOfRange .sprite a n)) := by
  unfold checkSprite
  split
  · exact .inl ⟨.inl (by assumption), rfl⟩
  · next hn =>
    rcases checkRead_cases .sprite a n with h | h
    · exact .inl ⟨.inr h.1, h.2⟩
    · exact .inr ⟨hn, h⟩

theorem checkKey_cases (b : Byte) :
    (∃ h : b.toNat < 16, checkKey b = .ok ⟨b.toNat, h⟩) ∨
    (16 ≤ b.toNat ∧ checkKey b = .error (.addressOutOfRange .keypad b.toNat 1)) := by
  unfold checkKey
  split
  · exact .inl ⟨by assumption, rfl⟩
  · exact .inr ⟨by omega, rfl⟩

/-! ## The stack -/

theorem push_cases (s : State) (x : Word) :
    (∃ h : s.sp.val < 16, s.push x =
      .ok { s with stack := s.stack.set s.sp.val x, sp := ⟨s.sp.val + 1, by omega⟩ }) ∨
    (s.sp.val = 16 ∧ s.push x = .error (.stackOverflow s.pc)) := by
  unfold State.push
  split
  · exact .inl ⟨by assumption, rfl⟩
  · exact .inr ⟨by omega, rfl⟩

theorem pop_cases (s : State) :
    (∃ _ : 0 < s.sp.val, s.pop =
      .ok (s.stack[s.sp.val - 1], { s with sp := ⟨s.sp.val - 1, by omega⟩ })) ∨
    (s.sp.val = 0 ∧ s.pop = .error (.stackUnderflow s.pc)) := by
  unfold State.pop
  split
  · exact .inl ⟨by assumption, rfl⟩
  · exact .inr ⟨by omega, rfl⟩

/-! ## Register ranges -/

theorem regRange_length (s : State) (x : Reg) : (s.regRange x).length = x.val + 1 := by
  simp [State.regRange]

theorem regRange_getElem (s : State) (x : Reg) (k : Nat) (hk : k < (s.regRange x).length) :
    (s.regRange x)[k] = s.reg (regAt k) := by
  have hk' : k < 16 := by rw [regRange_length] at hk; omega
  simp [State.regRange, State.reg, regAt, Nat.mod_eq_of_lt hk']

/-- A register load changes registers only: `V0..VX` come from consecutive bytes. -/
theorem loadRange_spec (s : State) (a : Nat) (x : Reg) :
    (∀ r, (s.loadRange a x).reg r = if r.val ≤ x.val then s.mem.read (a + r.val) else s.reg r) ∧
    s.loadRange a x = { s with v := (s.loadRange a x).v } := by
  have key : ∀ n, n ≤ 16 →
      (∀ r : Reg, ((List.range n).foldl (fun t k => t.setReg (regAt k) (s.mem.read (a + k))) s).reg r =
        if r.val < n then s.mem.read (a + r.val) else s.reg r) ∧
      (List.range n).foldl (fun t k => t.setReg (regAt k) (s.mem.read (a + k))) s =
        { s with v := ((List.range n).foldl (fun t k => t.setReg (regAt k) (s.mem.read (a + k))) s).v } := by
    intro n
    induction n with
    | zero => intro _; simp
    | succ n ih =>
      intro hn
      obtain ⟨h1, h2⟩ := ih (by omega)
      rw [List.range_succ, List.foldl_append]
      simp only [List.foldl_cons, List.foldl_nil]
      refine ⟨fun r => ?_, ?_⟩
      · rw [reg_setReg, h1]
        have hr : (r = regAt n) ↔ r.val = n := by
          rw [regAt, Fin.ext_iff, Fin.val_ofNat, Nat.mod_eq_of_lt (by omega)]
        by_cases h : r.val = n
        · simp [hr, h]
        · have : r.val < n + 1 ↔ r.val < n := by omega
          simp [hr, h, this]
      · rw [h2]; rfl
  obtain ⟨h1, h2⟩ := key (x.val + 1) (by omega)
  refine ⟨fun r => ?_, h2⟩
  have := h1 r
  simpa [State.loadRange, Nat.lt_succ_iff] using this

/-! ## Keys -/

theorem firstPressed_none {key : Vector Bool 16} :
    firstPressed key = none ↔ ∀ k : Fin 16, key[k.val] = false := by
  unfold firstPressed
  rw [List.findIdx?_eq_none_iff]
  constructor
  · intro h k
    simpa using h key[k.val] (by simp)
  · intro h b hb
    obtain ⟨k, hk, rfl⟩ := List.mem_iff_getElem.1 hb
    simpa using h ⟨k, by simpa using hk⟩

theorem firstPressed_some {key : Vector Bool 16} {k : Nat} :
    firstPressed key = some k ↔
      ∃ h : k < 16, key[k] = true ∧ ∀ j : Fin 16, j.val < k → key[j.val] = false := by
  unfold firstPressed
  rw [List.findIdx?_eq_some_iff_getElem]
  constructor
  · rintro ⟨h, h1, h2⟩
    refine ⟨by simpa using h, by simpa using h1, fun j hj => ?_⟩
    simpa using h2 j.val hj
  · rintro ⟨h, h1, h2⟩
    refine ⟨by simpa using h, by simpa using h1, fun j hj => ?_⟩
    simpa using h2 ⟨j, by omega⟩ hj

/-! ## The framebuffer -/

theorem pixel_flip (fb : Framebuffer) (r r' : Fin 32) (c c' : Fin 64) :
    Framebuffer.pixel (Framebuffer.flip fb r c) r' c' =
      if r' = r ∧ c' = c then !(Framebuffer.pixel fb r' c') else Framebuffer.pixel fb r' c' := by
  unfold Framebuffer.pixel Framebuffer.flip
  by_cases hr : r' = r
  · subst hr
    by_cases hc : c' = c
    · subst hc; simp
    · have : c.val ≠ c'.val := fun e => hc (Fin.ext e.symm)
      simp [hc, this]
  · have : r.val ≠ r'.val := fun e => hr (Fin.ext e.symm)
    simp [hr, this]

@[simp] theorem pixel_blankScreen (r : Fin 32) (c : Fin 64) :
    Framebuffer.pixel blankScreen r c = false := by
  simp [Framebuffer.pixel, blankScreen]

/-- Framebuffers with the same pixels are equal. -/
theorem framebuffer_ext {f g : Framebuffer}
    (h : ∀ r c, Framebuffer.pixel f r c = Framebuffer.pixel g r c) : f = g := by
  apply Vector.ext
  intro r hr
  apply Vector.ext
  intro c hc
  exact h ⟨r, hr⟩ ⟨c, hc⟩

end Sys2Proof.Machine
end

