-- ==== Sys2Proof/Laws/Display.lean ====
section
/-! SUPPORT. The draw as one list of pixel positions: what plotting a list without repeats does, and that the draw of Machine/Display.lean plots such a list (44_display.md R172). -/

namespace Sys2Proof.Machine

/-- Plot the pixels of a list, in order. -/
def plotAll (p : Canvas) (l : List (Fin 32 × Fin 64)) : Canvas := l.foldl (fun q a => q.plot a.1 a.2) p

theorem pixel_plot (p : Canvas) (a : Fin 32 × Fin 64) (r : Fin 32) (c : Fin 64) :
    Framebuffer.pixel (p.plot a.1 a.2).fb r c =
      if (r, c) = a then !Framebuffer.pixel p.fb r c else Framebuffer.pixel p.fb r c := by
  obtain ⟨r', c'⟩ := a
  show Framebuffer.pixel (Framebuffer.flip _ _ _) _ _ = _
  rw [pixel_flip]
  simp [Prod.ext_iff]

/-- Plotting positions without repeats flips exactly those pixels, and collides when one of them was lit. -/
theorem plotAll_spec (l : List (Fin 32 × Fin 64)) (hl : l.Nodup) (p : Canvas) :
    (∀ r c, (r, c) ∈ l → Framebuffer.pixel (plotAll p l).fb r c = !Framebuffer.pixel p.fb r c) ∧
    (∀ r c, (r, c) ∉ l → Framebuffer.pixel (plotAll p l).fb r c = Framebuffer.pixel p.fb r c) ∧
    ((plotAll p l).collided = true ↔
      p.collided = true ∨ ∃ a ∈ l, Framebuffer.pixel p.fb a.1 a.2 = true) := by
  induction l generalizing p with
  | nil => simp [plotAll]
  | cons a l ih =>
    rw [List.nodup_cons] at hl
    obtain ⟨h1, h2, h3⟩ := ih hl.2 (p.plot a.1 a.2)
    have step : plotAll p (a :: l) = plotAll (p.plot a.1 a.2) l := rfl
    have other : ∀ b ∈ l, Framebuffer.pixel (p.plot a.1 a.2).fb b.1 b.2 = Framebuffer.pixel p.fb b.1 b.2 :=
      fun b hb => by rw [pixel_plot, if_neg (by rintro rfl; exact hl.1 hb)]
    rw [step]
    refine ⟨fun r c h => ?_, fun r c h => ?_, ?_⟩
    · rcases List.mem_cons.1 h with h | h
      · rw [h2 r c (h ▸ hl.1), pixel_plot, if_pos h]
      · rw [h1 r c h, other (r, c) h]
    · rw [List.mem_cons, not_or] at h
      rw [h2 r c h.2, pixel_plot, if_neg h.1]
    · have hc : (p.plot a.1 a.2).collided = true ↔
          p.collided = true ∨ Framebuffer.pixel p.fb a.1 a.2 = true := by simp [Canvas.plot]
      have he : (∃ b ∈ l, Framebuffer.pixel (p.plot a.1 a.2).fb b.1 b.2 = true) ↔
          ∃ b ∈ l, Framebuffer.pixel p.fb b.1 b.2 = true :=
        exists_congr fun b => and_congr_right fun hb => by rw [other b hb]
      rw [h3, hc, he]
      simp [or_assoc]

/-- The pixels that one row byte draws. -/
def rowPixels (b : Byte) (y x0 : Nat) : List (Fin 32 × Fin 64) :=
  ((List.range 8).filter (spriteBit b)).map fun col => (wrapRow y, wrapCol (x0 + col))

/-- The pixels that a sprite draws. -/
def spritePixels (m : Memory) (a x0 y0 n : Nat) : List (Fin 32 × Fin 64) :=
  (List.range n).flatMap fun row => rowPixels (m.read (a + row)) (y0 + row) x0

theorem drawRow_eq_plotAll (p : Canvas) (b : Byte) (y x0 : Nat) :
    p.drawRow b y x0 = plotAll p (rowPixels b y x0) := by
  simp only [Canvas.drawRow, plotAll, rowPixels, List.foldl_map, List.foldl_filter]

theorem drawSprite_eq_plotAll (p : Canvas) (m : Memory) (a x0 y0 n : Nat) :
    p.drawSprite m a x0 y0 n = plotAll p (spritePixels m a x0 y0 n) := by
  simp only [Canvas.drawSprite, plotAll, spritePixels, List.foldl_flatMap, drawRow_eq_plotAll]

end Sys2Proof.Machine
end

