-- ==== Sys2Proof/Laws/Step.lean ====
section
/-! SUPPORT. What a step can do, said once: the three ways it ends (40_step.md R90, R91, R94), that every meaning answers a next state, and that a meaning either reports an error and changes nothing else or reports nothing. -/

namespace Sys2Proof.Machine

/-! ## The three ways a step ends -/

theorem step_fetch_fails {s : State} (h : 0x0FFF ≤ s.pc.toNat) :
    step s = .next { s with report := .addressOutOfRange .fetch s.pc.toNat 2 } := by
  unfold step
  rcases checkRead_cases .fetch s.pc.toNat 2 with ⟨h1, -⟩ | ⟨-, h2⟩
  · exact absurd h1 (by simp only [Config.memAddrMax]; omega)
  · rw [h2, attempt_error]

theorem step_fetch_succeeds {s : State} (h : s.pc.toNat < 0x0FFF) : step s = runWord s.fetchWord s.fetched := by
  unfold step
  rcases checkRead_cases .fetch s.pc.toNat 2 with ⟨-, h1⟩ | ⟨h2, -⟩
  · rw [h1, attempt_ok]
  · exact absurd h2 (by simp only [Config.memAddrMax]; omega)

theorem runWord_of_decode {w : Word} {i : Instr} (h : decode w = some i) (s : State) : runWord w s = exec i s := by
  simp [runWord, h]

theorem runWord_of_invalid {w : Word} (h : decode w = none) (s : State) :
    runWord w s = .next { s with report := .invalidOpcode w } := by
  simp [runWord, h, raise]

/-- Everything a step can do. -/
theorem step_cases {s t : State} (h : step s = .next t) :
    (0x0FFF ≤ s.pc.toNat ∧ t = { s with report := .addressOutOfRange .fetch s.pc.toNat 2 }) ∨
    (s.pc.toNat < 0x0FFF ∧ decode s.fetchWord = none ∧
      t = { s.fetched with report := .invalidOpcode s.fetchWord }) ∨
    (s.pc.toNat < 0x0FFF ∧ ∃ i, decode s.fetchWord = some i ∧ exec i s.fetched = .next t) := by
  by_cases hp : 0x0FFF ≤ s.pc.toNat
  · rw [step_fetch_fails hp] at h
    exact .inl ⟨hp, by simpa [eq_comm] using h⟩
  · have hp : s.pc.toNat < 0x0FFF := by omega
    rw [step_fetch_succeeds hp] at h
    cases hd : decode s.fetchWord with
    | none =>
      rw [runWord_of_invalid hd] at h
      exact .inr (.inl ⟨hp, rfl, by simpa [eq_comm] using h⟩)
    | some i =>
      rw [runWord_of_decode hd] at h
      exact .inr (.inr ⟨hp, i, rfl, h⟩)

theorem run_succ_of_step (M : Host.Core) {s t : M.State} (k : Nat) (h : M.step s = .next t) :
    M.run (k + 1) s = M.run k t := by
  simp only [Host.Core.run, h]

/-- A run takes one step and goes on. -/
theorem core_run_succ {s t : State} (k : Nat) (h : step s = .next t) :
    Sys2Proof.core.run (k + 1) s = Sys2Proof.core.run k t :=
  run_succ_of_step Sys2Proof.core k h

/-! ## What a meaning answers -/

/-- An instruction either reports an error and changes nothing else, or completes with the report untouched. -/
def ErrorOrEffect (s : State) (r : StepResult) : Prop :=
  ∃ t, r = .next t ∧ (t.report = s.report ∨ t = { s with report := t.report })

theorem ErrorOrEffect.ofNext {s t : State} (h : t.report = s.report) : ErrorOrEffect s (.next t) :=
  ⟨t, rfl, .inl h⟩

theorem ErrorOrEffect.ofAttempt {α : Type} {s : State} {c : Except Report α} {k : α → StepResult}
    (h : ∀ a, c = .ok a → ErrorOrEffect s (k a)) : ErrorOrEffect s (attempt s c k) := by
  cases c with
  | error e => exact ⟨_, rfl, .inr rfl⟩
  | ok a => exact h a rfl

theorem loadRange_report (s : State) (a : Nat) (x : Reg) : (s.loadRange a x).report = s.report := by
  rw [(loadRange_spec s a x).2]

theorem push_report {s t : State} {w : Word} (h : s.push w = .ok t) : t.report = s.report := by
  rcases push_cases s w with ⟨_, h'⟩ | ⟨_, h'⟩ <;> rw [h'] at h <;> cases h
  rfl

theorem pop_report {s : State} {p : Word × State} (h : s.pop = .ok p) : p.2.report = s.report := by
  rcases pop_cases s with ⟨_, h'⟩ | ⟨_, h'⟩ <;> rw [h'] at h <;> cases h
  rfl

/-- Every meaning answers a next state, and is of that shape. -/
theorem exec_errorOrEffect (i : Instr) (s : State) : ErrorOrEffect s (exec i s) := by
  cases i with
  | ret => exact .ofAttempt fun p hp => .ofNext (by simpa using pop_report hp)
  | call a => exact .ofAttempt fun t ht => .ofNext (by simpa using push_report ht)
  | drw x y n => exact .ofAttempt fun _ _ => .ofNext (by simp)
  | skp x => exact .ofAttempt fun _ _ => .ofNext (by simp)
  | sknp x => exact .ofAttempt fun _ _ => .ofNext (by simp)
  | ldB x => exact .ofAttempt fun _ _ => .ofNext rfl
  | dumpRegs x => exact .ofAttempt fun _ _ => .ofNext rfl
  | loadRegs x => exact .ofAttempt fun _ _ => .ofNext (loadRange_report s s.ea x)
  | ldVxK x =>
    show ErrorOrEffect s (execLdVxK x s)
    unfold execLdVxK
    split <;> exact .ofNext (by simp)
  | seByte x nn => exact .ofNext (by simp)
  | sneByte x nn => exact .ofNext (by simp)
  | seReg x y => exact .ofNext (by simp)
  | sneReg x y => exact .ofNext (by simp)
  | cls | jp | ldByte | addByte | ldReg | orReg | andReg | xorReg | addReg | sub | shr | subn | shl
  | ldI | jpV0 | rnd | ldVxDT | ldDTVx | ldSTVx | addI | ldF => exact .ofNext rfl

theorem exec_completes (i : Instr) (s : State) : ∃ t, exec i s = .next t :=
  let ⟨t, h, _⟩ := exec_errorOrEffect i s
  ⟨t, h⟩

theorem step_completes (s : State) : ∃ t, step s = .next t := by
  by_cases hp : 0x0FFF ≤ s.pc.toNat
  · exact ⟨_, step_fetch_fails hp⟩
  · rw [step_fetch_succeeds (by omega)]
    cases hd : decode s.fetchWord with
    | none => exact ⟨_, runWord_of_invalid hd _⟩
    | some i => rw [runWord_of_decode hd]; exact exec_completes i _

end Sys2Proof.Machine
end

