-- ==== Sys2Proof/Laws/HostPort.lean ====
section
/-! SUPPORT. Runs of host operations (60_exceptions.md R226): that every operation completes, and how finite runs are put together and an infinite run goes on. -/

namespace Sys2Proof.Machine

theorem hostStep_of_apply {op : HostOp} {s : State} {p : State × Reply} (h : applyHostOp op s = .next p) :
    hostStep op s = .next p.1 := by
  simp only [hostStep, h]

theorem hostStep_step (s : State) : hostStep .step s = step s := by
  unfold hostStep applyHostOp
  cases step s <;> rfl

/-- Every host operation answers a next state: the engine has no halt (40_step.md R96). -/
theorem hostStep_completes (op : HostOp) (s : State) : ∃ t, hostStep op s = .next t := by
  cases op with
  | step => rw [hostStep_step]; exact step_completes s
  | tick | load | reset | setKey | readFramebuffer => exact ⟨_, rfl⟩

@[simp] theorem runHost_nil (s : State) : runHost [] s = .next s := rfl

theorem runHost_cons {op : HostOp} {s t : State} (h : hostStep op s = .next t) (ops : List HostOp) :
    runHost (op :: ops) s = runHost ops t := by
  simp only [runHost, h]

/-- A run of two lists is the run of the second from the end of the run of the first. -/
theorem runHost_append {ops : List HostOp} {s t : State} (h : runHost ops s = .next t) (more : List HostOp) :
    runHost (ops ++ more) s = runHost more t := by
  induction ops generalizing s with
  | nil => cases h; rfl
  | cons op ops ih =>
    obtain ⟨u, hu⟩ := hostStep_completes op s
    rw [runHost_cons hu] at h
    rw [List.cons_append, runHost_cons hu, ih h]

@[simp] theorem infiniteRun_zero (ops : Nat → HostOp) (s : State) : infiniteRun ops s 0 = .next s := rfl

theorem infiniteRun_succ {ops : Nat → HostOp} {s t : State} {k : Nat} (h : infiniteRun ops s k = .next t) :
    infiniteRun ops s (k + 1) = hostStep (ops k) t := by
  simp only [infiniteRun, h]

theorem firstOps_succ (ops : Nat → HostOp) (k : Nat) : firstOps ops (k + 1) = firstOps ops k ++ [ops k] := by
  simp [firstOps, List.range_succ]

end Sys2Proof.Machine
end

