-- ==== Sys2Proof/Laws/PerInstr.lean ====
section
/-! SUPPORT. One lemma for each constructor of Instr: an instruction's word lies in the instruction's row of the opcode map (30_encoding.md R74, R75). -/

namespace Sys2Proof

/-! ## The masks of R74 keep exactly the fixed fields -/

theorem packA_masked (op : Nibble) (a : Addr) : packA op a &&& 0xF000#16 = packA op 0 := by
  apply BitVec.eq_of_getLsbD_eq
  intro i hi
  have hk : ∀ j : Fin 16, (0xF000#16).getLsbD j.val = decide (12 ≤ j.val) := by decide
  have hm := hk ⟨i, hi⟩
  simp only at hm
  rw [BitVec.getLsbD_and, hm, getLsbD_packA, getLsbD_packA]
  by_cases h12 : i < 12
  · simp [h12, show ¬ 12 ≤ i by omega]
  · simp [h12, show 12 ≤ i by omega]

theorem packXB_masked (op : Nibble) (x : Reg) (b : Byte) : packXB op x b &&& 0xF0FF#16 = packXB op 0 b := by
  apply BitVec.eq_of_getLsbD_eq
  intro i hi
  have hk : ∀ j : Fin 16, (0xF0FF#16).getLsbD j.val = decide (j.val < 8 ∨ 12 ≤ j.val) := by decide
  have hm := hk ⟨i, hi⟩
  simp only at hm
  rw [BitVec.getLsbD_and, hm]
  simp only [getLsbD_packXB]
  by_cases h8 : i < 8
  · simp [h8, show i < 12 by omega]
  · by_cases h12 : i < 12
    · simp [h8, h12, show ¬ 12 ≤ i by omega, regBits]
    · simp [h12, show 12 ≤ i by omega]

theorem packXYN_masked (op : Nibble) (x y : Reg) (n : Nibble) :
    packXYN op x y n &&& 0xF00F#16 = packXYN op 0 0 n := by
  apply BitVec.eq_of_getLsbD_eq
  intro i hi
  have hk : ∀ j : Fin 16, (0xF00F#16).getLsbD j.val = decide (j.val < 4 ∨ 12 ≤ j.val) := by decide
  have hm := hk ⟨i, hi⟩
  simp only at hm
  rw [BitVec.getLsbD_and, hm]
  simp only [getLsbD_packXYN]
  by_cases h4 : i < 4
  · simp [h4, show i < 12 by omega, show i < 8 by omega]
  · by_cases h12 : i < 12
    · by_cases h8 : i < 8 <;> simp [h4, h8, h12, show ¬ 12 ≤ i by omega, regBits]
    · simp [h12, show 12 ≤ i by omega]

end Sys2Proof

namespace Sys2Proof.Laws.SelectsOwnRow

/-- The word of an instruction selects the instruction's own row of the opcode map. -/
def Statement (i : Instr) : Prop := encode i &&& (opcodeRow i).1 = (opcodeRow i).2

theorem cls : Statement (.cls) := rfl
theorem ret : Statement (.ret) := rfl
theorem jp (a : Addr) : Statement (.jp a) := (packA_masked _ a).trans rfl
theorem call (a : Addr) : Statement (.call a) := (packA_masked _ a).trans rfl
theorem seByte (x : Reg) (nn : Byte) : Statement (.seByte x nn) := (packA_masked _ (regBits x ++ nn)).trans rfl
theorem sneByte (x : Reg) (nn : Byte) : Statement (.sneByte x nn) := (packA_masked _ (regBits x ++ nn)).trans rfl
theorem seReg (x y : Reg) : Statement (.seReg x y) := (packXYN_masked _ x y _).trans rfl
theorem ldByte (x : Reg) (nn : Byte) : Statement (.ldByte x nn) := (packA_masked _ (regBits x ++ nn)).trans rfl
theorem addByte (x : Reg) (nn : Byte) : Statement (.addByte x nn) := (packA_masked _ (regBits x ++ nn)).trans rfl
theorem ldReg (x y : Reg) : Statement (.ldReg x y) := (packXYN_masked _ x y _).trans rfl
theorem orReg (x y : Reg) : Statement (.orReg x y) := (packXYN_masked _ x y _).trans rfl
theorem andReg (x y : Reg) : Statement (.andReg x y) := (packXYN_masked _ x y _).trans rfl
theorem xorReg (x y : Reg) : Statement (.xorReg x y) := (packXYN_masked _ x y _).trans rfl
theorem addReg (x y : Reg) : Statement (.addReg x y) := (packXYN_masked _ x y _).trans rfl
theorem sub (x y : Reg) : Statement (.sub x y) := (packXYN_masked _ x y _).trans rfl
theorem shr (x y : Reg) : Statement (.shr x y) := (packXYN_masked _ x y _).trans rfl
theorem subn (x y : Reg) : Statement (.subn x y) := (packXYN_masked _ x y _).trans rfl
theorem shl (x y : Reg) : Statement (.shl x y) := (packXYN_masked _ x y _).trans rfl
theorem sneReg (x y : Reg) : Statement (.sneReg x y) := (packXYN_masked _ x y _).trans rfl
theorem ldI (a : Addr) : Statement (.ldI a) := (packA_masked _ a).trans rfl
theorem jpV0 (a : Addr) : Statement (.jpV0 a) := (packA_masked _ a).trans rfl
theorem rnd (x : Reg) (nn : Byte) : Statement (.rnd x nn) := (packA_masked _ (regBits x ++ nn)).trans rfl
theorem drw (x y : Reg) (n : Nat) : Statement (.drw x y n) := (packA_masked _ (regBits x ++ (regBits y ++ BitVec.ofNat 4 n))).trans rfl
theorem skp (x : Reg) : Statement (.skp x) := (packXB_masked _ x _).trans rfl
theorem sknp (x : Reg) : Statement (.sknp x) := (packXB_masked _ x _).trans rfl
theorem ldVxDT (x : Reg) : Statement (.ldVxDT x) := (packXB_masked _ x _).trans rfl
theorem ldVxK (x : Reg) : Statement (.ldVxK x) := (packXB_masked _ x _).trans rfl
theorem ldDTVx (x : Reg) : Statement (.ldDTVx x) := (packXB_masked _ x _).trans rfl
theorem ldSTVx (x : Reg) : Statement (.ldSTVx x) := (packXB_masked _ x _).trans rfl
theorem addI (x : Reg) : Statement (.addI x) := (packXB_masked _ x _).trans rfl
theorem ldF (x : Reg) : Statement (.ldF x) := (packXB_masked _ x _).trans rfl
theorem ldB (x : Reg) : Statement (.ldB x) := (packXB_masked _ x _).trans rfl
theorem dumpRegs (x : Reg) : Statement (.dumpRegs x) := (packXB_masked _ x _).trans rfl
theorem loadRegs (x : Reg) : Statement (.loadRegs x) := (packXB_masked _ x _).trans rfl

end Sys2Proof.Laws.SelectsOwnRow
end

