-- ==== Sys2Proof/Tests/Slice0.lean ====
section
/-! SUPPORT. Tests: well-formedness, decoding of words written out bit by bit from 30_encoding.md R74, single steps with the outcomes of 95_test_vectors.md (the vector's number stands beside each), and the witnesses of the obligations' hypotheses. -/

namespace Sys2Proof.Tests

open Sys2Proof Sys2Proof.Machine

/-! ## Helpers -/

/-- The construction state with a word where the next step fetches it (`PC` = 0x200). -/
def start (w : Word) : State := State.reset.withFetchWord 16 w.toNat

/-- The state with some registers set. -/
def withRegs (s : State) (l : List (Reg × Byte)) : State := l.foldl (fun t p => t.setReg p.1 p.2) s

/-- The state with a key down. -/
def withKey (s : State) (k : Fin 16) : State := setKey k true s

/-- The state with bytes stored from an address on. -/
def withBytes (s : State) (a : Nat) (l : List Byte) : State := { s with mem := s.mem.writeBytes a l }

/-- What `f` shows of the state after one step. -/
def after {α : Type} (f : State → α) (s : State) : Option α :=
  match step s with
  | .next t => some (f t)
  | .fault _ => none
  | .refused _ => none

/-- What `f` shows of the state after one instruction. -/
def afterExec {α : Type} (f : State → α) (i : Instr) (s : State) : Option α :=
  match exec i s with
  | .next t => some (f t)
  | .fault _ => none
  | .refused _ => none

/-- The program counter and the report. -/
def pcReport (s : State) : Nat × Report := (s.pc.toNat, s.report)

/-- `V0`, `V1` and `VF`, the columns of the vectors A1 to A38. -/
def regs01F (s : State) : Byte × Byte × Byte := (s.reg 0, s.reg 1, s.reg 15)

/-- `V0`, `V1` and `VF` set, the word at `PC`. -/
def alu (w : Word) (v0 v1 vf : Byte) : State := withRegs (start w) [(0, v0), (1, v1), (15, vf)]

/-- The lit pixels of one row, by column. -/
def lit (r : Fin 32) (s : State) : List Nat := (List.range 64).filter fun c => s.fb[r.val].toList.getD c false

/-- `len` bytes of memory from an address on. -/
def bytesAt (a len : Nat) (s : State) : List Byte := (List.range len).map fun k => s.mem.read (a + k)

/-! ## Well-formedness -/

theorem test_wellFormed_refuses_height_16 : (Instr.drw 1 2 16).wellFormed = false := by decide
theorem test_wellFormed_accepts_height_15 : (Instr.drw 1 2 15).wellFormed = true := by decide

/-! ## Decoding: each word written out from the `Encoding:` line of its rule -/

theorem test_decode_family_0 :
    decode 0b0000000011100000#16 = some .cls ∧ decode 0b0000000011101110#16 = some .ret := by decide
theorem test_decode_jumps :
    decode 0b0001000111000101#16 = some (.jp 0x1C5) ∧ decode 0b0010000111000101#16 = some (.call 0x1C5) ∧
    decode 0b1011000111000101#16 = some (.jpV0 0x1C5) := by decide
theorem test_decode_skips :
    decode 0b0011101000101101#16 = some (.seByte 0xA 0x2D) ∧
    decode 0b0100101000101101#16 = some (.sneByte 0xA 0x2D) ∧
    decode 0b0101101000110000#16 = some (.seReg 0xA 0x3) ∧
    decode 0b1001101000110000#16 = some (.sneReg 0xA 0x3) := by decide
theorem test_decode_immediate :
    decode 0b0110010110001110#16 = some (.ldByte 0x5 0x8E) ∧
    decode 0b0111010110001110#16 = some (.addByte 0x5 0x8E) ∧
    decode 0b1100010110001110#16 = some (.rnd 0x5 0x8E) := by decide
theorem test_decode_family_8 :
    decode 0b1000001011010000#16 = some (.ldReg 0x2 0xD) ∧ decode 0b1000001011010001#16 = some (.orReg 0x2 0xD) ∧
    decode 0b1000001011010010#16 = some (.andReg 0x2 0xD) ∧ decode 0b1000001011010011#16 = some (.xorReg 0x2 0xD) ∧
    decode 0b1000001011010100#16 = some (.addReg 0x2 0xD) ∧ decode 0b1000001011010101#16 = some (.sub 0x2 0xD) ∧
    decode 0b1000001011010110#16 = some (.shr 0x2 0xD) ∧ decode 0b1000001011010111#16 = some (.subn 0x2 0xD) ∧
    decode 0b1000001011011110#16 = some (.shl 0x2 0xD) := by decide
theorem test_decode_address_and_draw :
    decode 0b1010010000100001#16 = some (.ldI 0x421) ∧
    decode 0b1101010000101111#16 = some (.drw 0x4 0x2 15) := by decide
theorem test_decode_family_E :
    decode 0b1110011010011110#16 = some (.skp 0x6) ∧ decode 0b1110011010100001#16 = some (.sknp 0x6) := by decide
theorem test_decode_family_F :
    decode 0b1111110000000111#16 = some (.ldVxDT 0xC) ∧ decode 0b1111110000001010#16 = some (.ldVxK 0xC) ∧
    decode 0b1111110000010101#16 = some (.ldDTVx 0xC) ∧ decode 0b1111110000011000#16 = some (.ldSTVx 0xC) ∧
    decode 0b1111110000011110#16 = some (.addI 0xC) ∧ decode 0b1111110000101001#16 = some (.ldF 0xC) ∧
    decode 0b1111110000110011#16 = some (.ldB 0xC) ∧ decode 0b1111110001010101#16 = some (.dumpRegs 0xC) ∧
    decode 0b1111110001100101#16 = some (.loadRegs 0xC) := by decide
/-- S6 to S13. -/
theorem test_decode_invalid :
    [0x0000, 0x01E0, 0x0123, 0x5121, 0x9121, 0x8008, 0x800F, 0xE09F, 0xF0FF, 0xF000, 0xF066].map decode =
      List.replicate 11 none := by decide
theorem test_decode_bytes :
    decodeBytes [0x12, 0x34, 0x56] = .ok (.jp 0x234, [0x56]) ∧ decodeBytes [0x12] = .error .truncated ∧
    decodeBytes [] = .error .truncated ∧ decodeBytes [0x51, 0x21] = .error (.invalid 0x5121) ∧
    decodeTableWord 16 0xD12F = some (.drw 1 2 15) ∧ decodeTableWord 16 0x5121 = none := by
  refine ⟨rfl, rfl, rfl, rfl, ?_, ?_⟩ <;> decide
theorem test_encode :
    encode (.drw 1 2 15) = 0xD12F ∧ encode (.shl 3 4) = 0x834E ∧ encode (.sknp 5) = 0xE5A1 ∧
    encode (.ldB 7) = 0xF733 ∧ encode (.call 0xABC) = 0x2ABC ∧ encode (.seReg 8 9) = 0x5890 := by decide

/-! ## Fetch -/

/-- S2, the last fetchable address. -/
theorem test_fetch_last : after pcReport { withBytes State.reset 0xFFE [0x12, 0x00] with pc := 0xFFE } =
    some (0x200, .ok) := by decide
/-- S3. -/
theorem test_fetch_past : after pcReport { State.reset with pc := 0xFFF } =
    some (0xFFF, .addressOutOfRange .fetch 0xFFF 2) := by decide
/-- S5, an odd address. -/
theorem test_fetch_odd :
    after (fun t => (t.reg 0, t.pc)) { withBytes State.reset 0x201 [0x60, 0x55] with pc := 0x201 } =
      some (0x55, 0x203) := by decide
/-- S6: with no program loaded, memory at 0x200 is zero. -/
theorem test_step_of_reset : after pcReport State.reset = some (0x202, .invalidOpcode 0x0000) := by decide
/-- S11, reported again from a state that holds an old report. -/
theorem test_invalid : after pcReport { start 0x800D with report := .loadEmpty } =
    some (0x202, .invalidOpcode 0x800D) := by decide
/-- R90: a step that succeeds returns `ok`, whatever the last one returned. -/
theorem test_report_is_of_this_step : after pcReport { start 0x1234 with report := .loadEmpty } =
    some (0x234, .ok) := by decide

/-! ## Control flow -/

/-- F1. -/
theorem test_jp : after pcReport (start 0x1234) = some (0x234, .ok) := by decide
/-- F4. -/
theorem test_call : after (fun t => (t.pc, t.sp, t.stack[15])) { start 0x2300 with sp := 15 } =
    some (0x300, 16, 0x202) := by decide
/-- F5. -/
theorem test_call_full : after (fun t => (pcReport t, t.sp)) { start 0x2300 with sp := 16 } =
    some ((0x202, .stackOverflow 0x202), 16) := by decide
/-- F6. -/
theorem test_ret :
    after (fun t => (t.pc, t.sp, t.stack[0]))
      { withBytes State.reset 0x300 [0x00, 0xEE] with
        pc := 0x300, sp := 1, stack := State.reset.stack.set 0 0x202 } = some (0x202, 0, 0x202) := by decide
/-- F7. -/
theorem test_ret_empty : after pcReport { withBytes State.reset 0x300 [0x00, 0xEE] with pc := 0x300 } =
    some (0x302, .stackUnderflow 0x302) := by decide
/-- F8, F9. -/
theorem test_seByte : after pcReport (withRegs (start 0x3312) [(3, 0x12)]) = some (0x204, .ok) ∧
    after pcReport (withRegs (start 0x3312) [(3, 0x13)]) = some (0x202, .ok) := by decide
/-- F10, F11. -/
theorem test_sneByte : after pcReport (withRegs (start 0x4312) [(3, 0x12)]) = some (0x202, .ok) ∧
    after pcReport (withRegs (start 0x4312) [(3, 0x13)]) = some (0x204, .ok) := by decide
/-- F12, F13. -/
theorem test_seReg : after pcReport (withRegs (start 0x5120) [(1, 7), (2, 7)]) = some (0x204, .ok) ∧
    after pcReport (withRegs (start 0x5120) [(1, 7), (2, 8)]) = some (0x202, .ok) := by decide
/-- F15, F16. -/
theorem test_sneReg : after pcReport (withRegs (start 0x9120) [(1, 7), (2, 8)]) = some (0x204, .ok) ∧
    after pcReport (withRegs (start 0x9110) [(1, 7)]) = some (0x202, .ok) := by decide
/-- F17, F18. -/
theorem test_jpV0 : after pcReport (withRegs (start 0xB300) [(0, 4)]) = some (0x304, .ok) ∧
    after pcReport (withRegs (start 0xBFFF) [(0, 0xFF)]) = some (0x10FE, .ok) := by decide

/-! ## ALU -/

/-- A1, A2. -/
theorem test_ldByte : after regs01F (alu 0x60AB 0 0 0) = some (0xAB, 0, 0) ∧
    after regs01F (alu 0x6FAA 0 0 0) = some (0, 0, 0xAA) := by decide
/-- A3, A4. -/
theorem test_addByte : after regs01F (alu 0x70FF 1 0 0x33) = some (0, 0, 0x33) ∧
    after regs01F (alu 0x7F01 0 0 0xFF) = some (0, 0, 0) := by decide
/-- A5. -/
theorem test_ldReg : after regs01F (alu 0x8010 0 0x3C 0x55) = some (0x3C, 0x3C, 0x55) := by decide
/-- A6. -/
theorem test_or : after regs01F (alu 0x8011 0x0F 0xF0 0x55) = some (0xFF, 0xF0, 0x55) := by decide
/-- A7. -/
theorem test_and : after regs01F (alu 0x8012 0x3C 0x0F 0x55) = some (0x0C, 0x0F, 0x55) := by decide
/-- A8. -/
theorem test_xor : after regs01F (alu 0x8013 0xFF 0x0F 0x55) = some (0xF0, 0x0F, 0x55) := by decide
/-- A12, A13, A14. -/
theorem test_addReg : after regs01F (alu 0x8014 0x7F 0x80 0) = some (0xFF, 0x80, 0) ∧
    after regs01F (alu 0x8014 0x80 0x80 0) = some (0, 0x80, 1) ∧
    after regs01F (alu 0x8014 0xFF 0xFF 0) = some (0xFE, 0xFF, 1) := by decide
/-- A15, A16: the flag register as an operand. -/
theorem test_addReg_flag : after regs01F (alu 0x8F14 0 0xF5 0x10) = some (0, 0xF5, 1) ∧
    after regs01F (alu 0x80F4 1 0 0xFF) = some (0, 0, 1) := by decide
/-- A18, A19, A20. -/
theorem test_sub : after regs01F (alu 0x8015 3 5 1) = some (0xFE, 5, 0) ∧
    after regs01F (alu 0x8015 7 7 0) = some (0, 7, 1) ∧
    after regs01F (alu 0x8015 0 0xFF 1) = some (1, 0xFF, 0) := by decide
/-- A21. -/
theorem test_sub_flag : after regs01F (alu 0x8F15 0 1 5) = some (0, 1, 1) := by decide
/-- A22, A23. -/
theorem test_subn : after regs01F (alu 0x8017 3 5 0) = some (2, 5, 1) ∧
    after regs01F (alu 0x8017 5 3 1) = some (0xFE, 3, 0) := by decide
/-- A28, A26. -/
theorem test_shr : after regs01F (alu 0x8016 0x80 0xFF 0) = some (0x40, 0xFF, 0) ∧
    after regs01F (alu 0x8006 2 0 1) = some (1, 0, 0) := by decide
/-- A29, A30. -/
theorem test_shr_flag : after regs01F (alu 0x8F06 0 0 3) = some (0, 0, 1) ∧
    after regs01F (alu 0x8F06 0 0 2) = some (0, 0, 0) := by decide
/-- A31, A32. -/
theorem test_shl : after regs01F (alu 0x800E 0x81 0 0) = some (2, 0, 1) ∧
    after regs01F (alu 0x800E 0x40 0 1) = some (0x80, 0, 0) := by decide
/-- A35. -/
theorem test_shl_flag : after regs01F (alu 0x8F0E 0 0 0x81) = some (0, 0, 1) := by decide
/-- A36, A38 for every random byte: the mask, the one draw, and nothing else written. -/
theorem test_rnd : after (fun t => (t.reg 0, t.reg 15, t.pc, t.draws)) (alu 0xC00F 0x5A 0 0x55) =
    some (Config.random8 0 &&& 0x0F, 0x55, 0x202, 1) := rfl
/-- A37. -/
theorem test_rnd_zero : after (fun t => t.reg 0) (alu 0xC000 0x5A 0 0) = some 0 :=
  (rfl : _ = some (Config.random8 0 &&& 0)).trans (by simp)

/-! ## Address register and memory transfer -/

/-- M1. -/
theorem test_ldI : after (fun t => (t.i, t.report)) (start 0xA300) = some (0x300, .ok) := by decide
/-- M3, M5. -/
theorem test_addI :
    after (fun t => (t.i, t.reg 15, t.report)) { alu 0xF01E 1 0 0x77 with i := 0x0FFF } = some (0x1000, 0x77, .ok) ∧
    after (fun t => (t.i, t.reg 15, t.report)) { alu 0xF01E 1 0 0x77 with i := 0xFFFF } = some (0, 0x77, .ok) := by
  decide
/-- M6, M8, M9. -/
theorem test_ldF : after (fun t => t.i) (alu 0xF029 0x0A 0 0) = some 0x082 ∧
    after (fun t => t.i) (alu 0xF029 0x10 0 0) = some 0x0A0 ∧
    after (fun t => t.i) (alu 0xF029 0xFF 0 0) = some 0x54B := by decide
/-- M10, M12, M15. -/
theorem test_ldB :
    after (fun t => (bytesAt 0x300 3 t, t.i)) { withRegs (start 0xF733) [(7, 0xFE)] with i := 0x300 } =
      some ([2, 5, 4], 0x300) ∧
    after (bytesAt 0x300 3) { withRegs (start 0xF733) [(7, 0xFF)] with i := 0x300 } = some [2, 5, 5] ∧
    after (bytesAt 0xFFD 3) { withRegs (start 0xF733) [(7, 0x7B)] with i := 0xFFD } = some [1, 2, 3] := by decide
/-- M16, M17, M18, M19, M20. -/
theorem test_ldB_checked :
    after pcReport { start 0xF733 with i := 0xFFE } = some (0x202, .addressOutOfRange .bcd 0xFFE 3) ∧
    after pcReport { start 0xF733 with i := 0x09E } = some (0x202, .fontWrite .bcd 0x09E 3) ∧
    after pcReport { start 0xF733 with i := 0x04E } = some (0x202, .fontWrite .bcd 0x04E 3) ∧
    after pcReport { start 0xF733 with i := 0x04D } = some (0x202, .ok) ∧
    after pcReport { start 0xF733 with i := 0x0A0 } = some (0x202, .ok) := by decide
/-- M21. -/
theorem test_dump :
    after (fun t => (bytesAt 0x3FF 4 t, t.i)) { withRegs (start 0xF155) [(0, 0x11), (1, 0x22), (2, 0x33)] with i := 0x400 } =
      some ([0, 0x11, 0x22, 0], 0x400) := by decide
/-- M23, M24, M25. -/
theorem test_dump_checked :
    after pcReport { start 0xFF55 with i := 0xFF0 } = some (0x202, .ok) ∧
    after pcReport { start 0xFF55 with i := 0xFF1 } = some (0x202, .addressOutOfRange .dump 0xFF1 16) ∧
    after pcReport { start 0xF155 with i := 0x04F } = some (0x202, .fontWrite .dump 0x04F 2) := by decide
/-- M27. -/
theorem test_loadRegs :
    after (fun t => (t.reg 0, t.reg 1, t.reg 2, t.i))
      { withBytes (withRegs (start 0xF165) [(2, 0x77)]) 0x400 [0x11, 0x22, 0x33] with i := 0x400 } =
      some (0x11, 0x22, 0x77, 0x400) := by decide
/-- M29, M30. -/
theorem test_loadRegs_checked :
    after pcReport { start 0xF065 with i := 0xFFF } = some (0x202, .ok) ∧
    after (fun t => (t.reg 0, t.report)) { alu 0xF165 9 9 9 with i := 0xFFF } =
      some (9, .addressOutOfRange .loadRegs 0xFFF 2) := by decide

/-! ## Display -/

/-- D1. -/
theorem test_cls : after (fun t => (t.fb, t.reg 15))
    { alu 0x00E0 0 0 7 with fb := Framebuffer.flip (Framebuffer.flip blankScreen 0 0) 31 63 } =
      some (blankScreen, 7) := by decide
/-- D6: the sprite wraps at the right and at the bottom. -/
theorem test_drw_wraps :
    after (fun t => (lit 31 t, lit 0 t, t.reg 15))
      { withBytes (alu 0xD012 0x3E 0x1F 9) 0x300 [0xF0, 0x90] with i := 0x300 } =
      some ([0, 1, 62, 63], [1, 62], 0) := by decide
/-- D7, D4, D10. -/
theorem test_drw_checks :
    after (fun t => (t.fb, t.reg 15, t.report)) { alu 0xD013 0 0 9 with i := 0xFFE } =
      some (blankScreen, 9, .addressOutOfRange .sprite 0xFFE 3) ∧
    after (fun t => (t.reg 15, t.report)) { alu 0xD010 0 0 1 with i := 0xFFFF } = some (0, .ok) ∧
    after (fun t => (lit 0 t, t.reg 15))
      { withBytes (start 0xD011) 0x300 [0x40] with i := 0x300, fb := Framebuffer.flip blankScreen 0 0 } =
      some ([0, 1], 0) := by decide

/-! ## Keypad and timers -/

/-- K1, K2, K5. -/
theorem test_skp : after pcReport (withKey (withRegs (start 0xE19E) [(1, 5)]) 5) = some (0x204, .ok) ∧
    after pcReport (withRegs (start 0xE19E) [(1, 5)]) = some (0x202, .ok) ∧
    after pcReport (withRegs (start 0xE19E) [(1, 0x10)]) = some (0x202, .addressOutOfRange .keypad 0x10 1) := by decide
/-- K3, K4, K6. -/
theorem test_sknp : after pcReport (withKey (withRegs (start 0xE1A1) [(1, 5)]) 5) = some (0x202, .ok) ∧
    after pcReport (withRegs (start 0xE1A1) [(1, 5)]) = some (0x204, .ok) ∧
    after pcReport (withRegs (start 0xE1A1) [(1, 0xFF)]) = some (0x202, .addressOutOfRange .keypad 0xFF 1) := by decide
/-- K7. -/
theorem test_key_wait : after (fun t => (pcReport t, t.reg 3)) (withRegs (start 0xF30A) [(3, 0x44)]) =
    some ((0x200, .ok), 0x44) := by decide
/-- K8, K9. -/
theorem test_key_taken :
    after (fun t => (t.reg 3, t.pc)) (withKey (withKey (start 0xF30A) 9) 3) = some (3, 0x202) ∧
    after (fun t => (t.reg 15, t.pc)) (withKey (start 0xFF0A) 15) = some (15, 0x202) := by decide
/-- T1. -/
theorem test_ldVxDT : after (fun t => (t.reg 0, t.dt)) { start 0xF007 with dt := 0x3C } = some (0x3C, 0x3C) := by decide
/-- T2. -/
theorem test_ldDTVx : after (fun t => (t.dt, t.st)) (alu 0xF015 0x3C 0 0) = some (0x3C, 0) := by decide
/-- T3. -/
theorem test_ldSTVx : after (fun t => (t.dt, t.st)) (alu 0xF018 2 0 0) = some (0, 2) := by decide

/-! ## The host's operations -/

/-- T4 to T8: `DT`, `ST` and the tone. -/
theorem test_tick :
    ([(0, 0), (1, 1), (5, 2), (0, 1), (0xFF, 0xFF)] : List (Byte × Byte)).map
      (fun p => let r := tick { State.reset with dt := p.1, st := p.2 }; (r.1.dt, r.1.st, r.2)) =
      [(0, 0, false), (0, 0, true), (4, 1, false), (0, 0, true), (0xFE, 0xFE, false)] := by decide
/-- L1, L2, L5. -/
theorem test_load :
    bytesAt 0x200 3 (load [0x60, 0x01] { withBytes State.reset 0x202 [0xAA] with pc := 0x300 }).1 = [0x60, 0x01, 0xAA] ∧
    (load [0x60, 0x01] { State.reset with pc := 0x300 }).1.pc = 0x300 ∧
    load [] State.reset = (State.reset, .loadEmpty) := by decide
/-- L6. -/
theorem test_reset : (hostReset (withKey (alu 0x00E0 1 2 3) 2)).key[2] = true ∧
    (hostReset (withKey (alu 0x00E0 1 2 3) 2)).mem = [] ∧ (hostReset (alu 0x00E0 1 2 3)).v = State.reset.v := by decide
/-- R200, decision D25. -/
theorem test_codes : [Report.ok, .invalidOpcode 0, .stackOverflow 0, .stackUnderflow 0,
    .addressOutOfRange .fetch 0 0, .fontWrite .bcd 0 0, .loadEmpty, .loadTooLarge 0].map Report.code =
      [0, 1, 2, 3, 4, 5, 6, 7] := by decide

/-- An infinite run: `JP` to itself with a tick between two steps, after five operations (F2, T6). -/
theorem test_infiniteRun :
    (match infiniteRun (fun k => if k % 2 = 0 then .step else .tick) { start 0x1200 with dt := 5, st := 2 } 5 with
      | .next t => some (t.pc, t.dt, t.st)
      | .fault _ => none
      | .refused _ => none) = some (0x200, 3, 0) := by decide

/-! ## Witnesses: for each obligation with hypotheses, states and operands that meet them -/

theorem witness_DecodeOfEncodeIsTheInstruction :
    (Instr.drw 15 0 0).wellFormed = true ∧ (Instr.drw 0 15 15).wellFormed = true := by decide
theorem witness_DecodedWordEncodesBack : decode 0xDABF = some (.drw 10 11 15) := by decide
theorem witness_OpcodeMapSelectsOneRow : selectsRow 0x8AB6 (.shr 0 0) = true ∧ selectsRow 0x8AB6 (.shr 1 1) = true ∧
    decode 0x8AB6 = some (.shr 10 11) := by decide
/-- Each clause of the table of R76, at its edges. -/
theorem witness_InvalidWordsAreExactlyThoseListed :
    ([0x0000, 0x00DF, 0x00E1, 0x00ED, 0x00EF, 0x0FFF, 0x5001, 0x5FFF, 0x8008, 0x8FFF, 0x8FFD, 0x9001, 0x9FFF,
      0xE09D, 0xE0A2, 0xF006, 0xF066].map decode = List.replicate 17 none) ∧
    fieldOp 0x00DF = 0 ∧ fieldN 0x5FFF ≠ 0 ∧ fieldN 0x8FFD = 0xD ∧ fieldNN 0xE0A2 = 0xA2 := by decide
theorem witness_StepRunsTheDecodedInstruction :
    let s : State := { withBytes State.reset 0xFFE [0xD1, 0x2F] with pc := 0xFFE }
    s.pc.toNat < 0x0FFF ∧ decode (s.mem.read s.pc.toNat ++ s.mem.read (s.pc.toNat + 1)) = some (.drw 1 2 15) ∧
    (Instr.drw 1 2 15).wellFormed = true := by decide
theorem witness_InvalidWordIsReportedAndPassed :
    let s : State := { State.reset with pc := 0xFFE }
    s.pc.toNat < 0x0FFF ∧ decode (s.mem.read s.pc.toNat ++ s.mem.read (s.pc.toNat + 1)) = none := by decide
theorem witness_FetchPastMemoryRepeatsItsReport :
    0x0FFF ≤ ({ State.reset with pc := 0x0FFF } : State).pc.toNat ∧
    0x0FFF ≤ ({ State.reset with pc := 0xFFFF } : State).pc.toNat := by decide
theorem witness_ErrorLeavesTheStateAfterTheFetch :
    State.reset.report = .ok ∧ ∃ t, exec .ret State.reset = .next t ∧ t.report ≠ .ok := ⟨rfl, _, rfl, by decide⟩
/-- Each clause of the table. -/
theorem witness_OnlyTheListedInstructionsReport :
    afterExec State.report .ret State.reset = some (.stackUnderflow 0x200) ∧
    afterExec State.report (.call 0x300) { State.reset with sp := 16 } = some (.stackOverflow 0x200) ∧
    afterExec State.report (.drw 0 0 1) { State.reset with i := 0x1000 } = some (.addressOutOfRange .sprite 0x1000 1) ∧
    afterExec State.report (.ldB 0) { State.reset with i := 0xFFE } = some (.addressOutOfRange .bcd 0xFFE 3) ∧
    afterExec State.report (.ldB 0) { State.reset with i := 0x09F } = some (.fontWrite .bcd 0x09F 3) ∧
    afterExec State.report (.dumpRegs 15) { State.reset with i := 0xFF1 } = some (.addressOutOfRange .dump 0xFF1 16) ∧
    afterExec State.report (.dumpRegs 0) { State.reset with i := 0x050 } = some (.fontWrite .dump 0x050 1) ∧
    afterExec State.report (.loadRegs 0) { State.reset with i := 0x1000 } =
      some (.addressOutOfRange .loadRegs 0x1000 1) ∧
    afterExec State.report (.skp 0) (withRegs State.reset [(0, 16)]) = some (.addressOutOfRange .keypad 16 1) ∧
    afterExec State.report (.sknp 0) (withRegs State.reset [(0, 255)]) = some (.addressOutOfRange .keypad 255 1) := by
  decide
/-- Both sides of the equivalence. -/
theorem witness_StepReturnsOkExactlyWhenItsChecksPass :
    (∃ t, okStep (start 0x2300) t) ∧ decode (start 0x2300).fetchWord = some (.call 0x300) ∧
    runsOk (.call 0x300) (start 0x2300).fetched ∧ (start 0x2300).pc.toNat < 0x0FFF :=
  ⟨⟨_, rfl, by decide⟩, by decide, by show (0 : Nat) < 16; decide, by decide⟩
theorem witness_CallPushesTheReturnAddress :
    ({ State.reset with sp := 15 } : State).sp.val < 16 ∧ ({ State.reset with sp := 16 } : State).sp.val = 16 := by decide
theorem witness_ReturnPopsIntoPc :
    ({ State.reset with sp := 16 } : State).sp.val = (15 : Fin 16).val + 1 ∧
    ({ State.reset with sp := 1 } : State).sp.val = (0 : Fin 16).val + 1 ∧ State.reset.sp.val = 0 := by decide
theorem witness_ReturnUndoesCall :
    ({ State.reset with sp := 15 } : State).sp.val < 16 ∧
    ∃ t t' : State, exec (.call 0x300) { State.reset with sp := 15 } = .next t ∧ t' ≠ t ∧
      t'.stack = t.stack ∧ t'.sp = t.sp :=
  ⟨by decide, _, { State.reset with sp := 16, stack := State.reset.stack.set 15 0x200, i := 5 }, rfl,
    by decide, by decide, by decide⟩
/-- The clauses: a jump, a call that reports, a return, a skip taken and not, the wait with and without a key. -/
theorem witness_OnlyControlInstructionsMovePc :
    afterExec pcReport (.jp 0x300) State.reset = some (0x300, .ok) ∧
    afterExec pcReport (.call 0x300) { State.reset with sp := 16 } = some (0x200, .stackOverflow 0x200) ∧
    afterExec pcReport .ret { State.reset with sp := 16 } = some (0, .ok) ∧
    afterExec pcReport (.seByte 0 0) State.reset = some (0x202, .ok) ∧
    afterExec pcReport (.sneByte 0 0) State.reset = some (0x200, .ok) ∧
    afterExec pcReport (.ldVxK 0) State.reset = some (0x1FE, .ok) ∧
    afterExec pcReport (.ldVxK 0) (withKey State.reset 0) = some (0x200, .ok) := by decide
theorem witness_OnlySixInstructionsWriteTheFlag :
    (∃ t, exec (.ldByte 14 7) State.reset = .next t) ∧ (14 : Reg) ≠ 15 ∧ ∃ t, exec .cls State.reset = .next t :=
  ⟨⟨_, rfl⟩, by decide, _, rfl⟩

theorem witness_ShiftsNeitherReadNorNeedY :
    (0x8AB6 : Word) &&& 0xFF0F = 0x8A06 &&& 0xFF0F ∧ decode 0x8AB6 = some (.shr 10 11) ∧
    (0x8ABE : Word) &&& 0xFF0F = 0x8AFE &&& 0xFF0F ∧ decode 0x8ABE = some (.shl 10 11) ∧ (15 : Reg) ≠ 10 := by decide

theorem inSpace_of (a n : Nat) (h : a + n ≤ 0x1000) : inSpace a n := h
theorem not_inSpace_of (a n : Nat) (h : 0x1000 < a + n) : ¬ inSpace a n := Nat.not_le.2 h
theorem clear_of_font (a n : Nat) (h : a + n ≤ 0x050 ∨ 0x09F < a) : ¬ meetsFont a n := by
  rintro ⟨k, hk, h1, h2⟩; omega

/-- At the top of memory, just below the font and just above it. -/
theorem witness_BcdStoreWritesThreeDigits :
    let pointing (a : Word) : State := { State.reset with i := a }
    (inSpace (pointing 0xFFD).i.toNat 3 ∧ ¬ meetsFont (pointing 0xFFD).i.toNat 3) ∧
    (inSpace (pointing 0x04D).i.toNat 3 ∧ ¬ meetsFont (pointing 0x04D).i.toNat 3) ∧
    (inSpace (pointing 0x0A0).i.toNat 3 ∧ ¬ meetsFont (pointing 0x0A0).i.toNat 3) :=
  ⟨⟨inSpace_of _ _ (by decide), clear_of_font _ _ (by decide)⟩,
    ⟨inSpace_of _ _ (by decide), clear_of_font _ _ (by decide)⟩,
    inSpace_of _ _ (by decide), clear_of_font _ _ (by decide)⟩
theorem witness_RegisterDumpStoresTheRange :
    let s : State := { State.reset with i := 0xFF0 }
    inSpace s.i.toNat ((15 : Reg).val + 1) ∧ ¬ meetsFont s.i.toNat ((15 : Reg).val + 1) :=
  ⟨inSpace_of _ _ (by decide), clear_of_font _ _ (by decide)⟩
/-- The four clauses, each at the edge of its range. -/
theorem witness_RefusedStoresChangeNothing :
    ¬ inSpace ({ State.reset with i := 0xFFE } : State).i.toNat 3 ∧
    (inSpace ({ State.reset with i := 0x04E } : State).i.toNat 3 ∧
      meetsFont ({ State.reset with i := 0x04E } : State).i.toNat 3) ∧
    ¬ inSpace ({ State.reset with i := 0x1000 } : State).i.toNat ((0 : Reg).val + 1) ∧
    (inSpace ({ State.reset with i := 0x09F } : State).i.toNat ((0 : Reg).val + 1) ∧
      meetsFont ({ State.reset with i := 0x09F } : State).i.toNat ((0 : Reg).val + 1)) :=
  ⟨not_inSpace_of _ _ (by decide), ⟨inSpace_of _ _ (by decide), 2, by decide⟩, not_inSpace_of _ _ (by decide),
    inSpace_of _ _ (by decide), 0, by decide⟩
theorem witness_RegisterLoadReadsTheRange :
    inSpace ({ State.reset with i := 0xFF0 } : State).i.toNat ((15 : Reg).val + 1) ∧
    ¬ inSpace ({ State.reset with i := 0xFF1 } : State).i.toNat ((15 : Reg).val + 1) :=
  ⟨inSpace_of _ _ (by decide), not_inSpace_of _ _ (by decide)⟩
theorem witness_LoadUndoesDump :
    ∃ t u : State, State.reset.report = .ok ∧
      exec (.dumpRegs 15) { withRegs State.reset [(0, 7), (15, 9)] with i := 0x300 } = .next t ∧ t.report = .ok ∧
      u.mem = t.mem ∧ u.i = t.i ∧ u.v ≠ t.v :=
  ⟨_, { State.reset with i := 0x300, mem := [(0x300, 7), (0x30F, 9)] }, rfl, rfl, by decide, by decide, by decide,
    by decide⟩

/-- A state past construction that meets the invariant: a program of one word is loaded and has been fetched. -/
def running : State :=
  { State.reset with mem := [(0x200, 0x12), (0x201, 0x34)], pc := 0x202, sp := 1, stack := State.reset.stack.set 0 0x1000 }

theorem witness_Inv : Inv running where
  memCanonical := by decide
  font := by unfold fontIntact; decide
  pcRange := by decide
  stackRange := by unfold stackInRange; decide
theorem witness_GlyphAddressFindsTheGlyph :
    Inv { running with v := running.v.set 3 15 } ∧
    (({ running with v := running.v.set 3 15 } : State).reg 3).toNat < 16 :=
  ⟨⟨by decide, by unfold fontIntact; decide, by decide, by unfold stackInRange; decide⟩, by decide⟩
/-- P4's store at 0x206: the word 0x120A is dumped over the word at `PC`. -/
theorem witness_NextStepRunsTheStoredWord :
    let s : State := { withRegs State.reset [(0, 0x12), (1, 0x0A)] with i := 0x208, pc := 0x208 }
    s.report = .ok ∧ (∃ t, exec (.dumpRegs 1) s = .next t ∧ t.report = .ok) ∧ s.pc.toNat = s.i.toNat + 0 ∧
    decode (s.reg ⟨0, by omega⟩ ++ s.reg ⟨0 + 1, by omega⟩) = some (.jp 0x20A) :=
  ⟨by decide, ⟨_, rfl, by decide⟩, by decide, by decide⟩
/-- The two heights at the edges, and a covered pixel that is dark or lit. -/
theorem witness_DrawXorsTheSpriteAndReportsCollision :
    inSpace ({ State.reset with i := 0xFF1 } : State).i.toNat 15 ∧ 15 < 16 ∧
    spriteCovers { State.reset with i := 0x050 } 0 1 1 0 3 ∧
    (∃ r c, spriteCovers { State.reset with i := 0x050, fb := Framebuffer.flip blankScreen 0 3 } 0 1 1 r c ∧
      (Framebuffer.flip blankScreen 0 3)[r.val][c.val] = true) ∧
    ¬ spriteCovers { State.reset with i := 0x050 } 0 1 0 0 3 :=
  ⟨inSpace_of _ _ (by decide), by decide, ⟨0, 3, by decide⟩, ⟨0, 3, ⟨0, 3, by decide⟩, by decide⟩,
    by rintro ⟨row, _, h, _⟩; omega⟩
theorem witness_DrawPastMemoryChangesNothing :
    0 < 3 ∧ ¬ inSpace ({ State.reset with i := 0xFFE } : State).i.toNat 3 := ⟨by decide, not_inSpace_of _ _ (by decide)⟩
/-- A glyph drawn at the origin; register 0xF names the row, and is 0 before and after the draw. -/
theorem witness_DrawingTwiceRestoresTheScreen :
    let s : State := { State.reset with i := 0x050 }
    ∃ t u, exec (.drw 0 15 5) s = .next t ∧ t.report = .ok ∧ (t.reg 0).toNat % 64 = (s.reg 0).toNat % 64 ∧
      (t.reg 15).toNat % 32 = (s.reg 15).toNat % 32 ∧ exec (.drw 0 15 5) t = .next u ∧
      s.fb[0][3] = false ∧ t.fb[0][3] = true :=
  ⟨_, _, rfl, by decide, by decide, by decide, rfl, by decide, by decide⟩
theorem witness_KeySkipsTestTheNamedKey :
    ((withRegs State.reset [(1, 15)]).reg 1).toNat = (15 : Fin 16).val ∧ (withKey State.reset 15).key[15] = true ∧
    15 < ((withRegs State.reset [(1, 16)]).reg 1).toNat := by decide
theorem witness_KeyWaitTakesTheLowestKey :
    ((withKey (withKey State.reset 15) 14).key[14] = true ∧
      ∀ j : Fin 16, j < 14 → (withKey (withKey State.reset 15) 14).key[j.val] = false) ∧
    ∀ k : Fin 16, State.reset.key[k.val] = false := by decide
theorem witness_KeyWaitHoldsThePc :
    let s := start 0xF30A
    s.pc.toNat < 0x0FFF ∧ decode (s.mem.read s.pc.toNat ++ s.mem.read (s.pc.toNat + 1)) = some (.ldVxK 3) ∧
    ∀ j : Fin 16, s.key[j.val] = false := by decide
theorem witness_EachElementIsWrittenOnlyByItsInstructions :
    ∃ t, exec (.ldB 0) { State.reset with i := 0x300, v := State.reset.v.set 0 255 } = .next t ∧
      t.mem ≠ State.reset.mem := ⟨_, rfl, by decide⟩
/-- The clauses of the register column: a destination, the flag, the end of a loaded range, and registers left alone. -/
theorem witness_EachElementIsWrittenOnlyByItsInstructions_registers :
    afterExec (fun t => (t.reg 3, t.reg 15)) (.ldByte 3 7) State.reset = some (7, 0) ∧
    afterExec (fun t => (t.reg 3, t.reg 15)) (.addReg 3 3) (withRegs State.reset [(3, 0x80)]) = some (0, 1) ∧
    afterExec (fun t => (t.reg 0, t.reg 15)) (.drw 0 0 0) (withRegs State.reset [(15, 9)]) = some (0, 0) ∧
    afterExec (fun t => (t.reg 1, t.reg 2)) (.loadRegs 1) (withRegs { State.reset with i := 0x050 } [(2, 5)]) =
      some (0x90, 5) := by decide
/-- The edges of the address space and of the font. -/
theorem witness_ConstructionValues : State.reset.mem.read 0x04F = 0 ∧ State.reset.mem.read 0x050 = 0xF0 ∧
    State.reset.mem.read 0x09F = 0x80 ∧ State.reset.mem.read 0x0A0 = 0 ∧ State.reset.mem.read 0xFFF = 0 := by decide
theorem witness_StepNeverTicksATimer :
    (∃ t, step (withRegs (start 0xF115) [(1, 9)]) = .next t ∧ t.dt ≠ State.reset.dt) ∧
    ∃ t, step { start 0x00E0 with dt := 5, st := 5 } = .next t ∧ t.dt = 5 := ⟨⟨_, rfl, by decide⟩, _, rfl, by decide⟩
/-- A dump that ends just below the font, from a step. -/
theorem witness_StepNeverWritesTheFont :
    ∃ t, step { withRegs (start 0xF155) [(1, 9)] with i := 0x04E } = .next t ∧ t.report = .ok ∧
      t.mem.read 0x04F = 9 ∧ t.mem.read 0x050 = 0xF0 := ⟨_, rfl, by decide, by decide, by decide⟩
/-- The same memory made in two orders, and by writing a reset value back. -/
theorem witness_CanonicalMemoriesAreEqualData :
    Memory.wf [(0x050, 0), (0x200, 1)] ∧
    Memory.write (Memory.write [] 0x200 1) 0x050 0 = [(0x050, 0), (0x200, 1)] ∧
    Memory.write (Memory.write [] 0x050 0) 0x200 1 = [(0x050, 0), (0x200, 1)] ∧
    Memory.write [(0x050, 0), (0x200, 1)] 0x050 0xF0 = [(0x200, 1)] := by decide
theorem witness_TicksCommuteWithStepsThatTouchNoTimer :
    (∃ t, step { start 0x00E0 with dt := 1, st := 1 } = .next t) ∧ decode (start 0x00E0).fetchWord = some .cls :=
  ⟨⟨_, rfl⟩, by decide⟩
/-- L1, L3: the two edges of a program's length. -/
theorem witness_LoadPlacesTheWholeProgram :
    (1 ≤ [(0 : Byte)].length ∧ [(0 : Byte)].length ≤ 3584) ∧
    (1 ≤ (List.replicate 3584 (7 : Byte)).length ∧ (List.replicate 3584 (7 : Byte)).length ≤ 3584) := by
  simp only [List.length_replicate]; decide
/-- L2, L4: the lengths beside them. -/
theorem witness_RefusedLoadsChangeNothing :
    ([] : List Byte).length = 0 ∧ 3584 < (List.replicate 3585 (7 : Byte)).length := by
  simp only [List.length_replicate]; decide
theorem witness_StepKeepsTheInvariant : Inv running ∧ ∃ t, step running = .next t := ⟨witness_Inv, _, rfl⟩
theorem witness_EveryHostRunKeepsTheInvariant :
    Inv running ∧ ∃ t, runHost [.setKey 3 true, .step, .tick, .load [0x00, 0xE0], .reset, .step] running = .next t :=
  ⟨witness_Inv, _, rfl⟩

end Sys2Proof.Tests
end

section
/-! SUPPORT. What each instruction that has more than one way to end can do, which elements each instruction writes (the
access matrix of 10_state.md R38), and from these the statements about the state as a whole (10_state.md). -/

namespace Sys2Proof.Machine

/-! ## The instructions that have more than one way to end -/

theorem eq_of_next {s t : State} (h : (.next s : StepResult) = .next t) : t = s :=
  (Host.Outcome.next.inj h).symm

theorem exec_ret_cases {s t : State} (h : exec .ret s = .next t) :
    (s.sp.val = 0 ∧ t = { s with report := .stackUnderflow s.pc }) ∨
    (∃ _ : 0 < s.sp.val, t = { s with sp := ⟨s.sp.val - 1, by omega⟩, pc := s.stack[s.sp.val - 1] }) := by
  rcases pop_cases s with ⟨hp, hpop⟩ | ⟨h0, hpop⟩ <;> rw [exec, execRet, hpop] at h
  · exact .inr ⟨hp, eq_of_next h⟩
  · exact .inl ⟨h0, eq_of_next h⟩

theorem exec_call_cases {a : Addr} {s t : State} (h : exec (.call a) s = .next t) :
    (s.sp.val = 16 ∧ t = { s with report := .stackOverflow s.pc }) ∨
    (∃ _ : s.sp.val < 16, t = { s with
      stack := s.stack.set s.sp.val s.pc, sp := ⟨s.sp.val + 1, by omega⟩, pc := addrWord a }) := by
  rcases push_cases s s.pc with ⟨hlt, hpush⟩ | ⟨hfull, hpush⟩ <;> rw [exec, execCall, hpush] at h
  · exact .inr ⟨hlt, eq_of_next h⟩
  · exact .inl ⟨hfull, eq_of_next h⟩

theorem exec_drw_cases {x y : Reg} {n : Nat} {s t : State} (h : exec (.drw x y n) s = .next t) :
    (∃ e, checkSprite s.ea n = .error e ∧ t = { s with report := e }) ∨
    (checkSprite s.ea n = .ok () ∧ ∃ p : Canvas,
      p = Canvas.drawSprite ⟨s.fb, false⟩ s.mem s.ea ((s.reg x).toNat % 64) ((s.reg y).toNat % 32) n ∧
      t = { s with fb := p.fb }.setFlag p.collided) :=
  (attempt_next h).imp_right fun ⟨_, hc, hk⟩ => ⟨hc, _, rfl, eq_of_next hk⟩

theorem exec_skp_cases {x : Reg} {s t : State} (h : exec (.skp x) s = .next t) :
    (∃ e, checkKey (s.reg x) = .error e ∧ t = { s with report := e }) ∨
    (∃ k, checkKey (s.reg x) = .ok k ∧ t = s.skipIf s.key[k.val]) :=
  (attempt_next h).imp_right fun ⟨k, hc, hk⟩ => ⟨k, hc, eq_of_next hk⟩

theorem exec_sknp_cases {x : Reg} {s t : State} (h : exec (.sknp x) s = .next t) :
    (∃ e, checkKey (s.reg x) = .error e ∧ t = { s with report := e }) ∨
    (∃ k, checkKey (s.reg x) = .ok k ∧ t = s.skipIf (!s.key[k.val])) :=
  (attempt_next h).imp_right fun ⟨k, hc, hk⟩ => ⟨k, hc, eq_of_next hk⟩

theorem exec_ldVxK_cases {x : Reg} {s t : State} (h : exec (.ldVxK x) s = .next t) :
    (∃ k, firstPressed s.key = some k ∧ t = s.setReg x (BitVec.ofNat 8 k)) ∨
    (firstPressed s.key = none ∧ t = s.jump (s.pc - 2)) := by
  rw [exec, execLdVxK] at h
  cases hk : firstPressed s.key with
  | some k => rw [hk] at h; exact .inl ⟨k, rfl, eq_of_next h⟩
  | none => rw [hk] at h; exact .inr ⟨rfl, eq_of_next h⟩

theorem exec_ldB_cases {x : Reg} {s t : State} (h : exec (.ldB x) s = .next t) :
    (∃ e, checkWrite .bcd s.ea 3 = .error e ∧ t = { s with report := e }) ∨
    (checkWrite .bcd s.ea 3 = .ok () ∧ t = { s with mem := s.mem.writeBytes s.ea (bcdDigits (s.reg x)) }) :=
  (attempt_next h).imp_right fun ⟨_, hc, hk⟩ => ⟨hc, eq_of_next hk⟩

theorem exec_dumpRegs_cases {x : Reg} {s t : State} (h : exec (.dumpRegs x) s = .next t) :
    (∃ e, checkWrite .dump s.ea (x.val + 1) = .error e ∧ t = { s with report := e }) ∨
    (checkWrite .dump s.ea (x.val + 1) = .ok () ∧
      t = { s with mem := s.mem.writeBytes s.ea (s.regRange x) }) :=
  (attempt_next h).imp_right fun ⟨_, hc, hk⟩ => ⟨hc, eq_of_next hk⟩

theorem exec_loadRegs_cases {x : Reg} {s t : State} (h : exec (.loadRegs x) s = .next t) :
    (∃ e, checkRead .loadRegs s.ea (x.val + 1) = .error e ∧ t = { s with report := e }) ∨
    (checkRead .loadRegs s.ea (x.val + 1) = .ok () ∧ t = s.loadRange s.ea x) :=
  (attempt_next h).imp_right fun ⟨_, hc, hk⟩ => ⟨hc, eq_of_next hk⟩

/-! ## The access matrix -/

/-- The write columns of the access matrix (10_state.md R38), with the report: `t` is `s` but for the elements that the
instruction may write. -/
def WritesOnlyItsElements (i : Instr) (s t : State) : Prop :=
  match i with
  | .cls => t = { s with fb := t.fb }
  | .ret => t = { s with pc := t.pc, sp := t.sp, report := t.report }
  | .call _ => t = { s with pc := t.pc, stack := t.stack, sp := t.sp, report := t.report }
  | .jp _ | .jpV0 _ | .seByte _ _ | .sneByte _ _ | .seReg _ _ | .sneReg _ _ => t = { s with pc := t.pc }
  | .skp _ | .sknp _ => t = { s with pc := t.pc, report := t.report }
  | .ldVxK _ => t = { s with v := t.v, pc := t.pc }
  | .ldByte _ _ | .addByte _ _ | .ldReg _ _ | .orReg _ _ | .andReg _ _ | .xorReg _ _ | .addReg _ _
  | .sub _ _ | .shr _ _ | .subn _ _ | .shl _ _ | .ldVxDT _ => t = { s with v := t.v }
  | .rnd _ _ => t = { s with v := t.v, draws := t.draws }
  | .drw _ _ _ => t = { s with v := t.v, fb := t.fb, report := t.report }
  | .loadRegs _ => t = { s with v := t.v, report := t.report }
  | .ldI _ | .addI _ | .ldF _ => t = { s with i := t.i }
  | .ldB _ | .dumpRegs _ => t = { s with mem := t.mem, report := t.report }
  | .ldDTVx _ => t = { s with dt := t.dt }
  | .ldSTVx _ => t = { s with st := t.st }

theorem skipIf_eq_withPc (s : State) (c : Bool) : s.skipIf c = { s with pc := (s.skipIf c).pc } := by
  cases c <;> rfl

/-- Every instruction writes only the elements that the access matrix names for it. -/
theorem exec_writesOnlyItsElements {i : Instr} {s t : State} (h : exec i s = .next t) :
    WritesOnlyItsElements i s t := by
  cases i with
  | ret => rcases exec_ret_cases h with ⟨-, rfl⟩ | ⟨-, rfl⟩ <;> rfl
  | call a => rcases exec_call_cases h with ⟨-, rfl⟩ | ⟨-, rfl⟩ <;> rfl
  | seByte | sneByte | seReg | sneReg => cases h; exact skipIf_eq_withPc s _
  | skp x =>
    rcases exec_skp_cases h with ⟨e, -, rfl⟩ | ⟨k, -, rfl⟩
    · rfl
    · cases s.key[k.val] <;> rfl
  | sknp x =>
    rcases exec_sknp_cases h with ⟨e, -, rfl⟩ | ⟨k, -, rfl⟩
    · rfl
    · cases s.key[k.val] <;> rfl
  | ldVxK x => rcases exec_ldVxK_cases h with ⟨k, -, rfl⟩ | ⟨-, rfl⟩ <;> rfl
  | drw x y n => rcases exec_drw_cases h with ⟨e, -, rfl⟩ | ⟨-, p, -, rfl⟩ <;> rfl
  | ldB x => rcases exec_ldB_cases h with ⟨e, -, rfl⟩ | ⟨-, rfl⟩ <;> rfl
  | dumpRegs x => rcases exec_dumpRegs_cases h with ⟨e, -, rfl⟩ | ⟨-, rfl⟩ <;> rfl
  | loadRegs x =>
    rcases exec_loadRegs_cases h with ⟨e, -, rfl⟩ | ⟨-, rfl⟩
    · rfl
    · show _ = _
      rw [(loadRange_spec s s.ea x).2]
  | cls | jp | jpV0 | ldByte | addByte | ldReg | orReg | andReg | xorReg | addReg | sub | shr | subn | shl
  | ldVxDT | rnd | ldI | addI | ldF | ldDTVx | ldSTVx => cases h; rfl

section
variable {i : Instr} {s t : State} (h : exec i s = .next t)
include h

theorem exec_key : t.key = s.key := by
  have hw := exec_writesOnlyItsElements h
  cases i <;> exact (congrArg State.key hw :)

theorem exec_mem : t.mem = s.mem ∨ (∃ x, i = .ldB x) ∨ ∃ x, i = .dumpRegs x := by
  have hw := exec_writesOnlyItsElements h
  cases i with
  | ldB x => exact .inr (.inl ⟨x, rfl⟩)
  | dumpRegs x => exact .inr (.inr ⟨x, rfl⟩)
  | _ => exact .inl (congrArg State.mem hw :)

theorem exec_fb : t.fb = s.fb ∨ i = .cls ∨ ∃ x y n, i = .drw x y n := by
  have hw := exec_writesOnlyItsElements h
  cases i with
  | cls => exact .inr (.inl rfl)
  | drw x y n => exact .inr (.inr ⟨x, y, n, rfl⟩)
  | _ => exact .inl (congrArg State.fb hw :)

theorem exec_stack : t.stack = s.stack ∨ ∃ a, i = .call a := by
  have hw := exec_writesOnlyItsElements h
  cases i with
  | call a => exact .inr ⟨a, rfl⟩
  | _ => exact .inl (congrArg State.stack hw :)

theorem exec_sp : t.sp = s.sp ∨ (∃ a, i = .call a) ∨ i = .ret := by
  have hw := exec_writesOnlyItsElements h
  cases i with
  | call a => exact .inr (.inl ⟨a, rfl⟩)
  | ret => exact .inr (.inr rfl)
  | _ => exact .inl (congrArg State.sp hw :)

theorem exec_i : t.i = s.i ∨ (∃ a, i = .ldI a) ∨ (∃ x, i = .addI x) ∨ ∃ x, i = .ldF x := by
  have hw := exec_writesOnlyItsElements h
  cases i with
  | ldI a => exact .inr (.inl ⟨a, rfl⟩)
  | addI x => exact .inr (.inr (.inl ⟨x, rfl⟩))
  | ldF x => exact .inr (.inr (.inr ⟨x, rfl⟩))
  | _ => exact .inl (congrArg State.i hw :)

theorem exec_dt : t.dt = s.dt ∨ ∃ x, i = .ldDTVx x := by
  have hw := exec_writesOnlyItsElements h
  cases i with
  | ldDTVx x => exact .inr ⟨x, rfl⟩
  | _ => exact .inl (congrArg State.dt hw :)

theorem exec_st : t.st = s.st ∨ ∃ x, i = .ldSTVx x := by
  have hw := exec_writesOnlyItsElements h
  cases i with
  | ldSTVx x => exact .inr ⟨x, rfl⟩
  | _ => exact .inl (congrArg State.st hw :)

theorem exec_draws : t.draws = s.draws ∨ ∃ x nn, i = .rnd x nn := by
  have hw := exec_writesOnlyItsElements h
  cases i with
  | rnd x nn => exact .inr ⟨x, nn, rfl⟩
  | _ => exact .inl (congrArg State.draws hw :)

end

/-! ## The registers -/

/-- The registers that an instruction may write (10_state.md R22, R24): its destination, the flag register for the six
flag writers, its loaded range. -/
def MayWriteReg (i : Instr) (r : Reg) : Prop :=
  match i with
  | .ldByte x _ | .addByte x _ | .ldReg x _ | .orReg x _ | .andReg x _ | .xorReg x _ | .rnd x _
  | .ldVxDT x | .ldVxK x => r = x
  | .addReg x _ | .sub x _ | .subn x _ | .shr x _ | .shl x _ => r = x ∨ r = flagReg
  | .drw _ _ _ => r = flagReg
  | .loadRegs x => r.val ≤ x.val
  | _ => False

theorem reg_setReg_or (s : State) (x r : Reg) (b : Byte) : (s.setReg x b).reg r = s.reg r ∨ r = x := by
  by_cases hr : r = x
  · exact .inr hr
  · exact .inl (reg_setReg_of_ne s hr b)

theorem reg_setResultFlag_or (s : State) (x r : Reg) (b : Byte) (f : Bool) :
    (s.setResultFlag x b f).reg r = s.reg r ∨ r = x ∨ r = flagReg := by
  rcases reg_setReg_or (s.setReg x b) flagReg r (flagByte f) with hf | hf
  · exact (reg_setReg_or s x r b).imp hf.trans .inl
  · exact .inr (.inr hf)

/-- An instruction leaves every register that it may not write as it was. -/
theorem exec_reg {i : Instr} {s t : State} (h : exec i s = .next t) (r : Reg) :
    t.reg r = s.reg r ∨ MayWriteReg i r := by
  have hw := exec_writesOnlyItsElements h
  cases i with
  | ldByte x | addByte x | ldReg x | orReg x | andReg x | xorReg x | rnd x | ldVxDT x =>
    cases h; exact reg_setReg_or _ x r _
  | ldVxK x =>
    rcases exec_ldVxK_cases h with ⟨k, -, rfl⟩ | ⟨-, rfl⟩
    · exact reg_setReg_or s x r _
    · exact .inl rfl
  | addReg x | sub x | subn x | shr x | shl x => cases h; exact reg_setResultFlag_or s x r _ _
  | drw x y n =>
    rcases exec_drw_cases h with ⟨e, -, rfl⟩ | ⟨-, p, -, rfl⟩
    · exact .inl rfl
    · exact reg_setReg_or _ flagReg r _
  | loadRegs x =>
    rcases exec_loadRegs_cases h with ⟨e, -, rfl⟩ | ⟨-, rfl⟩
    · exact .inl rfl
    · by_cases hr : r.val ≤ x.val
      · exact .inr hr
      · exact .inl (by rw [(loadRange_spec s s.ea x).1, if_neg hr])
  | _ => exact .inl (congrArg (State.reg · r) hw :)

/-- Settles O45: the access matrix, one clause for each element. -/
theorem eachElementIsWrittenOnlyByItsInstructions :
    Obligations.EachElementIsWrittenOnlyByItsInstructions := by
  intro i s t h
  exact ⟨exec_key h, fun r => by have hr := exec_reg h r; cases i <;> exact hr, exec_mem h, exec_fb h,
    exec_stack h, exec_sp h, exec_i h, exec_dt h, exec_st h, exec_draws h⟩

/-- Settles O27: the flag register is a register like another, so the register column of the access matrix decides. -/
theorem onlySixInstructionsWriteTheFlag : Obligations.OnlySixInstructionsWriteTheFlag := by
  intro i s t h hi
  refine (exec_reg h flagReg).resolve_right fun hr => ?_
  cases i with
  | addReg | sub | subn | shr | shl | drw => exact hi
  | ldByte | addByte | ldReg | orReg | andReg | xorReg | rnd | ldVxDT | ldVxK => exact hi hr.symm
  | loadRegs x => exact hi (Fin.le_antisymm (Fin.le_last x) hr)
  | _ => exact hr

/-! ## The program counter -/

theorem addrWord_toNat (a : Addr) : (addrWord a).toNat = a.toNat := by
  simp only [addrWord, BitVec.toNat_setWidth]; omega

/-- The sum of `JP V0, addr` cannot wrap: it is at most 0xFFF + 0xFF. -/
theorem offsetTarget_toNat (s : State) (a : Addr) : (s.offsetTarget a).toNat = a.toNat + (s.reg 0).toNat := by
  simp only [State.offsetTarget, addrWord, byteWord, BitVec.toNat_add, BitVec.toNat_setWidth]; omega

theorem skipIf_pc_cases (s : State) (c : Bool) : (s.skipIf c).pc = s.pc ∨ (s.skipIf c).pc = s.pc + 2 := by
  cases c
  · exact .inl rfl
  · exact .inr rfl

/-- Settles O19: the control instructions one by one, and every other by the access matrix. -/
theorem onlyControlInstructionsMovePc : Obligations.OnlyControlInstructionsMovePc := by
  intro i s t h
  have hw := exec_writesOnlyItsElements h
  cases i with
  | jp a => cases h; exact .inl (addrWord_toNat a)
  | jpV0 a => cases h; exact offsetTarget_toNat s a
  | call a =>
    rcases exec_call_cases h with ⟨-, rfl⟩ | ⟨-, rfl⟩
    · exact .inr ⟨rfl, Report.noConfusion⟩
    · exact .inl (addrWord_toNat a)
  | ret =>
    rcases exec_ret_cases h with ⟨-, rfl⟩ | ⟨hp, rfl⟩
    · exact .inr ⟨rfl, Report.noConfusion⟩
    · exact .inl ⟨⟨s.sp.val - 1, by omega⟩, rfl⟩
  | seByte | sneByte | seReg | sneReg => cases h; exact skipIf_pc_cases s _
  | skp x =>
    rcases exec_skp_cases h with ⟨e, -, rfl⟩ | ⟨k, -, rfl⟩
    · exact .inl rfl
    · exact skipIf_pc_cases s _
  | sknp x =>
    rcases exec_sknp_cases h with ⟨e, -, rfl⟩ | ⟨k, -, rfl⟩
    · exact .inl rfl
    · exact skipIf_pc_cases s _
  | ldVxK x =>
    rcases exec_ldVxK_cases h with ⟨k, -, rfl⟩ | ⟨hk, rfl⟩
    · exact .inl rfl
    · exact .inr ⟨rfl, firstPressed_none.1 hk⟩
  | _ => exact (congrArg State.pc hw :)

/-! ## The invariant -/

/-- A store that passes its check lies outside the font, so that it leaves the font intact. -/
theorem fontIntact_of_checkedStore {m : Memory} (hm : fontIntact m) {kind : AccessKind} {a n : Nat}
    (hc : checkWrite kind a n = .ok ()) {xs : List Byte} (hn : xs.length = n) :
    fontIntact (m.writeBytes a xs) := by
  refine fontIntact_writeBytes hm a xs fun k hk => ?_
  rcases checkWrite_cases kind a n with ⟨-, hclear, -⟩ | ⟨-, he⟩ | ⟨-, -, -, he⟩
  · simp only [Config.fontEnd, Config.fontBase] at hclear
    simp only [inFont, Config.fontEnd, Config.fontBase, Bool.and_eq_false_iff, decide_eq_false_iff_not]
    omega
  · rw [he] at hc; cases hc
  · rw [he] at hc; cases hc

section
variable {i : Instr} {s t : State} (h : exec i s = .next t)
include h

/-- Instructions change memory only by checked stores, so that what every checked store keeps, they keep. -/
theorem exec_keeps_of_checkedStore {P : Memory → Prop} (hs : P s.mem)
    (hP : ∀ kind n xs, checkWrite kind s.ea n = .ok () → xs.length = n → P (s.mem.writeBytes s.ea xs)) :
    P t.mem := by
  rcases exec_mem h with hm | ⟨x, rfl⟩ | ⟨x, rfl⟩
  · exact hm ▸ hs
  · rcases exec_ldB_cases h with ⟨e, -, rfl⟩ | ⟨hc, rfl⟩
    · exact hs
    · exact hP _ _ _ hc rfl
  · rcases exec_dumpRegs_cases h with ⟨e, -, rfl⟩ | ⟨hc, rfl⟩
    · exact hs
    · exact hP _ _ _ hc (regRange_length s x)

/-- Only `CALL` writes the stack, and it writes `PC`. -/
theorem exec_keeps_stackInRange (hs : stackInRange s) (hpc : s.pc.toNat ≤ 0x1000) : stackInRange t := by
  rcases exec_stack h with hst | ⟨a, rfl⟩
  · exact fun k => by rw [hst]; exact hs k
  · rcases exec_call_cases h with ⟨-, rfl⟩ | ⟨-, rfl⟩
    · exact hs
    · intro k
      simp only [Vector.getElem_set]
      split
      · exact hpc
      · exact hs k

/-- The largest `PC` is that of `JP V0, addr`: 0xFFF + 0xFF (10_state.md R29). The key wait takes back what the fetch has
added, whence the lower bound. -/
theorem exec_pc_lt (hs : stackInRange s) (hlow : 2 ≤ s.pc.toNat) (hpc : s.pc.toNat ≤ 0x1000) :
    t.pc.toNat < 0x1100 := by
  have hmove := onlyControlInstructionsMovePc i s t h
  have same (e : t.pc = s.pc) : t.pc.toNat < 0x1100 := by rw [e]; omega
  have skip (e : t.pc = s.pc ∨ t.pc = s.pc + 2) : t.pc.toNat < 0x1100 := by bv_omega
  cases i with
  | jp a | call a =>
    rcases hmove with e | ⟨e, -⟩
    · omega
    · exact same e
  | jpV0 a =>
    have e : t.pc.toNat = a.toNat + (s.reg 0).toNat := hmove
    omega
  | ret =>
    rcases hmove with ⟨k, e⟩ | ⟨e, -⟩
    · have := hs k
      rw [e]; omega
    · exact same e
  | seByte | sneByte | seReg | sneReg | skp | sknp => exact skip hmove
  | ldVxK x =>
    rcases hmove with e | ⟨e, -⟩
    · exact same e
    · bv_omega
  | _ => exact same hmove

end

theorem exec_keeps_inv {i : Instr} {s t : State} (hs : Inv s) (hlow : 2 ≤ s.pc.toNat)
    (hpc : s.pc.toNat ≤ 0x1000) (h : exec i s = .next t) : Inv t where
  memCanonical := exec_keeps_of_checkedStore h hs.memCanonical fun _ _ xs _ _ =>
    wf_writeBytes hs.memCanonical s.ea xs
  font := exec_keeps_of_checkedStore h hs.font fun _ _ _ hc hn => fontIntact_of_checkedStore hs.font hc hn
  pcRange := exec_pc_lt h hs.stackRange hlow hpc
  stackRange := exec_keeps_stackInRange h hs.stackRange hpc

/-- The invariant does not speak of the report. -/
theorem Inv.withReport {s : State} (hs : Inv s) (e : Report) : Inv { s with report := e } :=
  ⟨hs.memCanonical, hs.font, hs.pcRange, hs.stackRange⟩

theorem fetched_pc_toNat {s : State} (hp : s.pc.toNat < 0x0FFF) : s.fetched.pc.toNat = s.pc.toNat + 2 := by
  rw [fetched_pc]; bv_omega

theorem Inv.fetched {s : State} (hs : Inv s) (hp : s.pc.toNat < 0x0FFF) : Inv s.fetched where
  memCanonical := hs.memCanonical
  font := hs.font
  pcRange := by rw [fetched_pc_toNat hp]; omega
  stackRange := hs.stackRange

/-- Settles O57, by the three ways a step ends. -/
theorem stepKeepsTheInvariant : Obligations.StepKeepsTheInvariant := by
  intro s t hs h
  rcases step_cases h with ⟨-, rfl⟩ | ⟨hp, -, rfl⟩ | ⟨hp, i, -, hi⟩
  · exact hs.withReport _
  · exact (hs.fetched hp).withReport _
  · have hpc := fetched_pc_toNat hp
    exact exec_keeps_inv (hs.fetched hp) (by omega) (by omega) hi

/-! ## Construction -/

theorem read_reset_mem (a : Nat) : State.reset.mem.read a = initialByte a := rfl

theorem initialByte_in_font {a : Nat} (h1 : 0x050 ≤ a) (h2 : a ≤ 0x09F) :
    initialByte a = font.getD (a - 0x050) 0 := by
  simp [initialByte, inFont, h1, h2]

theorem initialByte_outside_font {a : Nat} (h : a < 0x050 ∨ 0x09F < a) : initialByte a = 0 := by
  have hf : ¬ (0x050 ≤ a ∧ a ≤ 0x09F) := by omega
  simp [initialByte, inFont, hf]

theorem reg_reset (r : Reg) : State.reset.reg r = 0 := by simp [State.reg, State.reset]

theorem stack_reset (k : Fin 16) : State.reset.stack[k.val] = 0 := by simp [State.reset]

theorem fb_reset (r : Fin 32) (c : Fin 64) : State.reset.fb[r.val][c.val] = false := pixel_blankScreen r c

theorem key_reset (k : Fin 16) : State.reset.key[k.val] = false := by simp [State.reset]

/-- Settles O53: memory through the reset contents, the arrays slot by slot, the rest by definition. -/
theorem constructionValues : Obligations.ConstructionValues :=
  ⟨fun a h1 h2 => (read_reset_mem a).trans (initialByte_in_font h1 h2),
    fun a _ h => (read_reset_mem a).trans (initialByte_outside_font h),
    reg_reset, rfl, rfl, rfl, stack_reset, rfl, rfl, fb_reset, key_reset⟩

/-- Settles O56: no cell differs from the reset contents, and every stack slot is 0. -/
theorem constructionMeetsTheInvariant : Obligations.ConstructionMeetsTheInvariant where
  memCanonical := wf_nil
  font := fontIntact_nil
  pcRange := by decide
  stackRange k := by rw [stack_reset]; decide

end Sys2Proof.Machine
end

section
/-! SUPPORT. What a store that passes its check can reach, that a canonical memory is determined by what it reads, and
from these the statements about memory (20_memory.md). -/

namespace Sys2Proof.Machine

/-! ## Checked stores -/

theorem checkWrite_eq_ok {kind : AccessKind} {a n : Nat} (h : checkWrite kind a n = .ok ()) :
    a + n - 1 ≤ Config.memAddrMax ∧ (Config.fontEnd < a ∨ a + n - 1 < Config.fontBase) := by
  rcases checkWrite_cases kind a n with ⟨hspace, hclear, -⟩ | ⟨-, he⟩ | ⟨-, -, -, he⟩
  · exact ⟨hspace, hclear⟩
  · rw [he] at h; cases h
  · rw [he] at h; cases h

theorem checkWrite_ne_error_ok (kind : AccessKind) (a n : Nat) : checkWrite kind a n ≠ .error .ok := by
  intro h
  rcases checkWrite_cases kind a n with ⟨-, -, he⟩ | ⟨-, he⟩ | ⟨-, -, -, he⟩ <;> rw [he] at h <;> cases h

/-- A store that passes its check leaves every byte of the font region as it was, whatever it held. -/
theorem read_font_checkedStore (m : Memory) {kind : AccessKind} {a n : Nat} (hc : checkWrite kind a n = .ok ())
    {xs : List Byte} (hn : xs.length = n) {b : Nat} (h1 : Config.fontBase ≤ b) (h2 : b ≤ Config.fontEnd) :
    (m.writeBytes a xs).read b = m.read b := by
  obtain ⟨-, hclear⟩ := checkWrite_eq_ok hc
  exact read_writeBytes_outside m a xs (by omega)

theorem exec_read_font {i : Instr} {s t : State} (h : exec i s = .next t) {a : Nat} (h1 : Config.fontBase ≤ a)
    (h2 : a ≤ Config.fontEnd) : t.mem.read a = s.mem.read a :=
  @exec_keeps_of_checkedStore i s t h (fun m => m.read a = s.mem.read a) rfl
    fun _ _ _ hc hn => read_font_checkedStore s.mem hc hn h1 h2

/-- Settles O47: a step changes memory only by an instruction, and an instruction only by checked stores. -/
theorem stepNeverWritesTheFont : Obligations.StepNeverWritesTheFont := by
  intro s t a h h1 h2
  rcases step_cases h with ⟨-, rfl⟩ | ⟨-, -, rfl⟩ | ⟨-, i, -, hi⟩
  · rfl
  · rfl
  · exact exec_read_font hi h1 h2

/-! ## Equal memories are equal data -/

theorem read_of_forall_ne {m : Memory} {a : Nat} (h : ∀ c ∈ m, c.1 ≠ a) : m.read a = initialByte a := by
  induction m with
  | nil => rfl
  | cons c m ih =>
    rw [Memory.read, if_neg (h c List.mem_cons_self)]
    exact ih fun d hd => h d (List.mem_cons_of_mem c hd)

/-- Where no address occurs twice, every cell is read back. -/
theorem read_of_mem {m : Memory} (hm : m.Pairwise fun c d => c.1 < d.1) {c : Host.Cell} (hc : c ∈ m) :
    m.read c.1 = c.2 := by
  induction m with
  | nil => cases hc
  | cons d m ih =>
    obtain ⟨hd, hm⟩ := List.pairwise_cons.1 hm
    rcases List.mem_cons.1 hc with rfl | hc
    · exact if_pos rfl
    · rw [Memory.read, if_neg (hd c hc).ne]
      exact ih hm hc

/-- The cells of a canonical memory are the addresses that do not read as constructed, with what they read. -/
theorem mem_iff_read {m : Memory} (hm : m.wf) (c : Host.Cell) :
    c ∈ m ↔ m.read c.1 = c.2 ∧ c.2 ≠ initialByte c.1 := by
  obtain ⟨hsorted, hcells⟩ := hm
  constructor
  · exact fun hc => ⟨read_of_mem hsorted hc, (hcells c hc).2⟩
  · rintro ⟨hread, hne⟩
    by_contra hc
    refine hne (hread.symm.trans (read_of_forall_ne fun d hd he => hc ?_))
    have hd2 : d.2 = c.2 := by rw [← read_of_mem hsorted hd, he, hread]
    exact Prod.ext he hd2 ▸ hd

/-- Settles O48: both lists are sorted, and their cells are determined by what the memories read. -/
theorem canonicalMemoriesAreEqualData : Obligations.CanonicalMemoriesAreEqualData := by
  intro m n hm hn hread
  have hirrefl : Std.Irrefl fun c d : Host.Cell => c.1 < d.1 := ⟨fun c => Nat.lt_irrefl c.1⟩
  refine hm.1.eq_of_mem_iff hn.1 fun c => ?_
  rw [mem_iff_read hm, mem_iff_read hn, hread]

/-! ## Self-modifying code -/

/-- A dump that reports nothing lies in the space and has stored `V[j]` as its byte `j` (43_memory_transfer.md R155). -/
theorem exec_dumpRegs_of_ok {x : Reg} {s t : State} (h : exec (.dumpRegs x) s = .next t) (hok : t.report = .ok) :
    s.i.toNat + x.val ≤ Config.memAddrMax ∧
    ∀ j : Reg, j.val ≤ x.val → t.mem.read (s.i.toNat + j.val) = s.reg j := by
  rcases exec_dumpRegs_cases h with ⟨e, he, rfl⟩ | ⟨hc, rfl⟩
  · obtain rfl : e = .ok := hok
    exact absurd he (checkWrite_ne_error_ok _ _ _)
  · have hspace : s.i.toNat + x.val ≤ Config.memAddrMax := (checkWrite_eq_ok hc).1
    have hlen := regRange_length s x
    refine ⟨hspace, fun j hj => ?_⟩
    rw [State.ea, read_writeBytes_inside s.mem _ _ j.val (by omega) (by omega), regRange_getElem]
    exact congrArg s.reg (Fin.ofNat_val_eq_self j)

theorem step_of_decode {s : State} (hpc : s.pc.toNat < 0x0FFF) {i : Instr} (hd : decode s.fetchWord = some i) :
    step s = exec i s.fetched := by
  rw [step_fetch_succeeds hpc, runWord_of_decode hd]

/-- Settles O36: the dump leaves `PC` and puts the two registers where the fetch reads. -/
theorem nextStepRunsTheStoredWord : Obligations.NextStepRunsTheStoredWord := by
  intro x s t k hk i _ h hok hpc hd
  obtain ⟨hspace : _ ≤ 0x0FFF, hread⟩ := exec_dumpRegs_of_ok h hok
  have hpct : t.pc = s.pc := onlyControlInstructionsMovePc _ s t h
  have hhi := hread ⟨k, by omega⟩ (Nat.le_of_succ_le hk)
  have hlo := hread ⟨k + 1, by omega⟩ hk
  have hword : t.fetchWord = s.reg ⟨k, by omega⟩ ++ s.reg ⟨k + 1, by omega⟩ := by
    rw [State.fetchWord, wordOfBytes, hpct, hpc, Nat.add_assoc, hhi, hlo]
  exact step_of_decode (by rw [hpct]; omega) (hword ▸ hd)

end Sys2Proof.Machine
end

section
/-! SUPPORT. Decoding undoes encoding and encoding undoes decoding, and from these the statements about the encoding
(30_encoding.md). -/

namespace Sys2Proof

/-! ## Encode, then decode -/

/-- Settles O2: by the six formats of R71, the top nibble of the packed word selects the family and the fields are read
back as packed; only the height of `DRW` needs well-formedness. -/
theorem decodeOfEncodeIsTheInstruction : Obligations.DecodeOfEncodeIsTheInstruction := by
  intro i hi
  cases i with
  | cls | ret => rfl
  | jp | call | ldI | jpV0 => simp [encode, decode_op1, decode_op2, decode_opA, decode_opB]
  | seByte | sneByte | ldByte | addByte | rnd =>
    simp [encode, decode_op3, decode_op4, decode_op6, decode_op7, decode_opC]
  | seReg | sneReg => simp [encode, decode_op5, decode_op9, decodeIfNZero]
  | ldReg | orReg | andReg | xorReg | addReg | sub | shr | subn | shl => simp [encode, decode_op8, decodeFamily8]
  | drw x y n =>
    have hn : n < 16 := of_decide_eq_true hi
    simp [encode, decode_opD, Nat.mod_eq_of_lt hn]
  | skp | sknp => simp [encode, decode_opE, decodeFamilyE]
  | ldVxDT | ldVxK | ldDTVx | ldSTVx | addI | ldF | ldB | dumpRegs | loadRegs =>
    simp [encode, decode_opF, decodeFamilyF]

/-! ## Decode, then encode -/

theorem packA_of_fieldOp {w : Word} {op : Nibble} (hop : fieldOp w = op) : packA op (fieldNNN w) = w :=
  hop ▸ packA_fields w

theorem packXB_of_fieldOp {w : Word} {op : Nibble} (hop : fieldOp w = op) : packXB op (fieldX w) (fieldNN w) = w :=
  hop ▸ packXB_fields w

theorem packXB_of_fields {w : Word} {op : Nibble} {nn : Byte} (hop : fieldOp w = op) (hnn : fieldNN w = nn) :
    packXB op (fieldX w) nn = w :=
  hnn ▸ packXB_of_fieldOp hop

theorem packXYN_of_fields {w : Word} {op n : Nibble} (hop : fieldOp w = op) (hn : fieldN w = n) :
    packXYN op (fieldX w) (fieldY w) n = w :=
  hop ▸ hn ▸ packXYN_fields w

theorem encode_of_decodeFamily0 {w : Word} {i : Instr} (h : decodeFamily0 w = some i) :
    i.wellFormed = true ∧ encode i = w := by
  unfold decodeFamily0 at h
  split_ifs at h with hcls hret <;> cases h
  · exact ⟨rfl, hcls.symm⟩
  · exact ⟨rfl, hret.symm⟩

theorem eq_of_decodeIfNZero {w : Word} {i j : Instr} (h : decodeIfNZero w j = some i) : fieldN w = 0x0 ∧ i = j := by
  unfold decodeIfNZero at h
  split_ifs at h with hn
  exact ⟨hn, (Option.some.inj h).symm⟩

theorem encode_of_decodeFamily8 {w : Word} {i : Instr} (hop : fieldOp w = 0x8) (h : decodeFamily8 w = some i) :
    i.wellFormed = true ∧ encode i = w := by
  unfold decodeFamily8 at h
  split_ifs at h <;> cases h <;> exact ⟨rfl, packXYN_of_fields hop (by assumption)⟩

theorem encode_of_decodeFamilyE {w : Word} {i : Instr} (hop : fieldOp w = 0xE) (h : decodeFamilyE w = some i) :
    i.wellFormed = true ∧ encode i = w := by
  unfold decodeFamilyE at h
  split_ifs at h <;> cases h <;> exact ⟨rfl, packXB_of_fields hop (by assumption)⟩

theorem encode_of_decodeFamilyF {w : Word} {i : Instr} (hop : fieldOp w = 0xF) (h : decodeFamilyF w = some i) :
    i.wellFormed = true ∧ encode i = w := by
  unfold decodeFamilyF at h
  split_ifs at h <;> cases h <;> exact ⟨rfl, packXB_of_fields hop (by assumption)⟩

/-- Settles O3: by the sixteen families, in each of which the fields that the decoder read make the word again. -/
theorem decodedWordEncodesBack : Obligations.DecodedWordEncodesBack := by
  intro w i h
  rcases nibble_cases (fieldOp w) with
    hop | hop | hop | hop | hop | hop | hop | hop | hop | hop | hop | hop | hop | hop | hop | hop
  · rw [decode_op0 w hop] at h; exact encode_of_decodeFamily0 h
  · rw [decode_op1 w hop] at h; cases h; exact ⟨rfl, packA_of_fieldOp hop⟩
  · rw [decode_op2 w hop] at h; cases h; exact ⟨rfl, packA_of_fieldOp hop⟩
  · rw [decode_op3 w hop] at h; cases h; exact ⟨rfl, packXB_of_fieldOp hop⟩
  · rw [decode_op4 w hop] at h; cases h; exact ⟨rfl, packXB_of_fieldOp hop⟩
  · rw [decode_op5 w hop] at h
    obtain ⟨hn, rfl⟩ := eq_of_decodeIfNZero h
    exact ⟨rfl, packXYN_of_fields hop hn⟩
  · rw [decode_op6 w hop] at h; cases h; exact ⟨rfl, packXB_of_fieldOp hop⟩
  · rw [decode_op7 w hop] at h; cases h; exact ⟨rfl, packXB_of_fieldOp hop⟩
  · rw [decode_op8 w hop] at h; exact encode_of_decodeFamily8 hop h
  · rw [decode_op9 w hop] at h
    obtain ⟨hn, rfl⟩ := eq_of_decodeIfNZero h
    exact ⟨rfl, packXYN_of_fields hop hn⟩
  · rw [decode_opA w hop] at h; cases h; exact ⟨rfl, packA_of_fieldOp hop⟩
  · rw [decode_opB w hop] at h; cases h; exact ⟨rfl, packA_of_fieldOp hop⟩
  · rw [decode_opC w hop] at h; cases h; exact ⟨rfl, packXB_of_fieldOp hop⟩
  · rw [decode_opD w hop] at h
    cases h
    have hn : fieldN w = BitVec.ofNat 4 (fieldN w).toNat := by simp
    exact ⟨decide_eq_true (fieldN w).isLt, packXYN_of_fields hop hn⟩
  · rw [decode_opE w hop] at h; exact encode_of_decodeFamilyE hop h
  · rw [decode_opF w hop] at h; exact encode_of_decodeFamilyF hop h

/-! ## The opcode map -/

open Laws.SelectsOwnRow in
theorem encode_masked : ∀ i : Instr, Statement i
  | .cls => cls
  | .ret => ret
  | .jp a => jp a
  | .call a => call a
  | .seByte x nn => seByte x nn
  | .sneByte x nn => sneByte x nn
  | .seReg x y => seReg x y
  | .ldByte x nn => ldByte x nn
  | .addByte x nn => addByte x nn
  | .ldReg x y => ldReg x y
  | .orReg x y => orReg x y
  | .andReg x y => andReg x y
  | .xorReg x y => xorReg x y
  | .addReg x y => addReg x y
  | .sub x y => sub x y
  | .shr x y => shr x y
  | .subn x y => subn x y
  | .shl x y => shl x y
  | .sneReg x y => sneReg x y
  | .ldI a => ldI a
  | .jpV0 a => jpV0 a
  | .rnd x nn => rnd x nn
  | .drw x y n => drw x y n
  | .skp x => skp x
  | .sknp x => sknp x
  | .ldVxDT x => ldVxDT x
  | .ldVxK x => ldVxK x
  | .ldDTVx x => ldDTVx x
  | .ldSTVx x => ldSTVx x
  | .addI x => addI x
  | .ldF x => ldF x
  | .ldB x => ldB x
  | .dumpRegs x => dumpRegs x
  | .loadRegs x => loadRegs x

theorem selectsRow_encode (i : Instr) : selectsRow (encode i) i = true :=
  beq_iff_eq.2 (encode_masked i)

/-- A selecting word has the bits of the instruction's own word wherever the row's mask covers them. -/
theorem masked_eq_of_selectsRow {w : Word} {i : Instr} (h : selectsRow w i = true) :
    w &&& (opcodeRow i).1 = encode i &&& (opcodeRow i).1 :=
  (eq_of_beq h).trans (encode_masked i).symm

theorem fieldOp_eq_of_masked {v w : Word} (h : v &&& 0xF000#16 = w &&& 0xF000#16) : fieldOp v = fieldOp w := by
  rw [← packA_fields v, ← packA_fields w, packA_masked, packA_masked] at h
  simpa using congrArg fieldOp h

theorem fieldOp_fieldNN_eq_of_masked {v w : Word} (h : v &&& 0xF0FF#16 = w &&& 0xF0FF#16) :
    fieldOp v = fieldOp w ∧ fieldNN v = fieldNN w := by
  rw [← packXB_fields v, ← packXB_fields w, packXB_masked, packXB_masked] at h
  exact ⟨by simpa using congrArg fieldOp h, by simpa using congrArg fieldNN h⟩

theorem fieldOp_fieldN_eq_of_masked {v w : Word} (h : v &&& 0xF00F#16 = w &&& 0xF00F#16) :
    fieldOp v = fieldOp w ∧ fieldN v = fieldN w := by
  rw [← packXYN_fields v, ← packXYN_fields w, packXYN_masked, packXYN_masked] at h
  exact ⟨by simpa using congrArg fieldOp h, by simpa using congrArg fieldN h⟩

theorem eq_of_masked_all {v w : Word} (h : v &&& 0xFFFF#16 = w &&& 0xFFFF#16) : v = w := by
  have hall : 0xFFFF#16 = BitVec.allOnes 16 := rfl
  rwa [hall, BitVec.and_allOnes, BitVec.and_allOnes] at h

/-- By the masks of R74: the bits that the row fixes are those that the decoder looks at. -/
theorem decode_of_selectsRow {w : Word} {i : Instr} (h : selectsRow w i = true) :
    ∃ j, decode w = some j ∧ opcodeRow j = opcodeRow i := by
  have hbits := masked_eq_of_selectsRow h
  cases i with
  | cls | ret => exact ⟨_, eq_of_masked_all hbits ▸ rfl, rfl⟩
  | jp | call | ldI | jpV0 =>
    have hop := fieldOp_eq_of_masked hbits
    rw [encode, fieldOp_packA] at hop
    simp [decode_op1, decode_op2, decode_opA, decode_opB, hop, opcodeRow]
  | seByte | sneByte | ldByte | addByte | rnd =>
    have hop := fieldOp_eq_of_masked hbits
    rw [encode, fieldOp_packXB] at hop
    simp [decode_op3, decode_op4, decode_op6, decode_op7, decode_opC, hop, opcodeRow]
  | drw =>
    have hop := fieldOp_eq_of_masked hbits
    rw [encode, fieldOp_packXYN] at hop
    exact ⟨_, decode_opD w hop, rfl⟩
  | seReg | sneReg =>
    obtain ⟨hop, hn⟩ := fieldOp_fieldN_eq_of_masked hbits
    rw [encode, fieldOp_packXYN] at hop
    rw [encode, fieldN_packXYN] at hn
    simp [decode_op5, decode_op9, decodeIfNZero, hop, hn, opcodeRow]
  | ldReg | orReg | andReg | xorReg | addReg | sub | shr | subn | shl =>
    obtain ⟨hop, hn⟩ := fieldOp_fieldN_eq_of_masked hbits
    rw [encode, fieldOp_packXYN] at hop
    rw [encode, fieldN_packXYN] at hn
    simp [decode_op8, decodeFamily8, hop, hn, opcodeRow]
  | skp | sknp =>
    obtain ⟨hop, hnn⟩ := fieldOp_fieldNN_eq_of_masked hbits
    rw [encode, fieldOp_packXB] at hop
    rw [encode, fieldNN_packXB] at hnn
    simp [decode_opE, decodeFamilyE, hop, hnn, opcodeRow]
  | ldVxDT | ldVxK | ldDTVx | ldSTVx | addI | ldF | ldB | dumpRegs | loadRegs =>
    obtain ⟨hop, hnn⟩ := fieldOp_fieldNN_eq_of_masked hbits
    rw [encode, fieldOp_packXB] at hop
    rw [encode, fieldNN_packXB] at hnn
    simp [decode_opF, decodeFamilyF, hop, hnn, opcodeRow]

/-- Settles O4: a decoded word is the word of its instruction and so lies in its row, and two rows that one word selects
are both the row of what it decodes to. -/
theorem opcodeMapSelectsOneRow : Obligations.OpcodeMapSelectsOneRow := by
  refine ⟨fun w i h => decode_of_selectsRow h, fun w j h => ?_, fun w i j hi hj => ?_⟩
  · obtain ⟨-, rfl⟩ := decodedWordEncodesBack w j h
    exact selectsRow_encode j
  · obtain ⟨k, hk, hki⟩ := decode_of_selectsRow hi
    obtain ⟨l, hl, hlj⟩ := decode_of_selectsRow hj
    obtain rfl : k = l := Option.some.inj (hk.symm.trans hl)
    exact hki.symm.trans hlj

/-! ## The invalid words -/

/-- A chain of tests answers none exactly when its first test and the rest of it do. -/
theorem ite_some_eq_none_iff {p : Prop} [Decidable p] {i : Instr} {o : Option Instr} :
    (if p then some i else o) = none ↔ ¬ p ∧ o = none := by
  by_cases hp : p <;> simp [hp]

theorem decodeFamily0_eq_none_iff (w : Word) : decodeFamily0 w = none ↔ w ≠ 0x00E0 ∧ w ≠ 0x00EE := by
  simp [decodeFamily0, ite_some_eq_none_iff]

theorem decodeIfNZero_eq_none_iff (w : Word) (i : Instr) : decodeIfNZero w i = none ↔ fieldN w ≠ 0x0 := by
  simp [decodeIfNZero]

theorem decodeFamily8_eq_none_iff (w : Word) :
    decodeFamily8 w = none ↔ fieldN w ∈ [0x8, 0x9, 0xA, 0xB, 0xC, 0xD, 0xF] := by
  have hsplit : ∀ n : Nibble, n ∉ [0x0, 0x1, 0x2, 0x3, 0x4, 0x5, 0x6, 0x7, 0xE] ↔
      n ∈ [0x8, 0x9, 0xA, 0xB, 0xC, 0xD, 0xF] := by decide
  rw [← hsplit]
  simp [decodeFamily8, ite_some_eq_none_iff]

theorem decodeFamilyE_eq_none_iff (w : Word) : decodeFamilyE w = none ↔ fieldNN w ∉ [0x9E, 0xA1] := by
  simp [decodeFamilyE, ite_some_eq_none_iff]

theorem decodeFamilyF_eq_none_iff (w : Word) :
    decodeFamilyF w = none ↔ fieldNN w ∉ [0x07, 0x0A, 0x15, 0x18, 0x1E, 0x29, 0x33, 0x55, 0x65] := by
  simp [decodeFamilyF, ite_some_eq_none_iff]

/-- Settles O5: by the sixteen families; the six that have an invalid word give their own line of R76. -/
theorem invalidWordsAreExactlyThoseListed : Obligations.InvalidWordsAreExactlyThoseListed := by
  intro w
  rcases nibble_cases (fieldOp w) with
    hop | hop | hop | hop | hop | hop | hop | hop | hop | hop | hop | hop | hop | hop | hop | hop
  · simp [decode_op0 w hop, decodeFamily0_eq_none_iff, hop]
  · simp [decode_op1 w hop, hop]
  · simp [decode_op2 w hop, hop]
  · simp [decode_op3 w hop, hop]
  · simp [decode_op4 w hop, hop]
  · simp [decode_op5 w hop, decodeIfNZero_eq_none_iff, hop]
  · simp [decode_op6 w hop, hop]
  · simp [decode_op7 w hop, hop]
  · simp [decode_op8 w hop, decodeFamily8_eq_none_iff, hop]
  · simp [decode_op9 w hop, decodeIfNZero_eq_none_iff, hop]
  · simp [decode_opA w hop, hop]
  · simp [decode_opB w hop, hop]
  · simp [decode_opC w hop, hop]
  · simp [decode_opD w hop, hop]
  · simp [decode_opE w hop, decodeFamilyE_eq_none_iff, hop]
  · simp [decode_opF w hop, decodeFamilyF_eq_none_iff, hop]

/-- Settles O1: each word is a literal, decoded by evaluation. -/
theorem specWordsDecode : Obligations.SpecWordsDecode := by
  unfold Obligations.SpecWordsDecode
  decide

end Sys2Proof
end

section
/-! SUPPORT. That a check fails exactly when the condition that Safety.lean states for it fails, so that an instruction
reports nothing exactly when it `runsOk`, and from these the statements about the step (40_step.md). -/

namespace Sys2Proof.Machine

/-! ## The three ways a step ends -/

/-- Settles O6: the word of the statement is the fetched word. -/
theorem stepRunsTheDecodedInstruction : Obligations.StepRunsTheDecodedInstruction :=
  fun _ _ hpc hd _ => step_of_decode hpc hd

/-- Settles O7: the word of the statement is the fetched word. -/
theorem invalidWordIsReportedAndPassed : Obligations.InvalidWordIsReportedAndPassed :=
  fun _ hpc hd => (step_fetch_succeeds hpc).trans (runWord_of_invalid hd _)

/-- Settles O8, by induction on the number of steps: the report leaves `PC` where it was, so the next fetch fails too. -/
theorem fetchPastMemoryRepeatsItsReport : Obligations.FetchPastMemoryRepeatsItsReport := by
  intro s k hpc
  induction k generalizing s with
  | zero => exact core_run_succ 0 (step_fetch_fails hpc)
  | succ k ih => exact (core_run_succ (k + 1) (step_fetch_fails hpc)).trans (ih _ hpc)

/-- Settles O9, by induction on the number of steps: every step completes. -/
theorem engineNeverStopsByItself : Obligations.EngineNeverStopsByItself := by
  intro k
  induction k with
  | zero => exact fun s => ⟨s, rfl⟩
  | succ k ih =>
    intro s
    obtain ⟨u, hu⟩ := step_completes s
    obtain ⟨t, ht⟩ := ih u
    exact ⟨t, (core_run_succ k hu).trans ht⟩

/-! ## The timers and the keypad -/

theorem exec_dt_value {i : Instr} {s t : State} (h : exec i s = .next t) :
    t.dt = s.dt ∨ ∃ x, i = .ldDTVx x ∧ t.dt = s.reg x := by
  rcases exec_dt h with hdt | ⟨x, rfl⟩
  · exact .inl hdt
  · exact .inr ⟨x, rfl, congrArg State.dt (eq_of_next h)⟩

theorem exec_st_value {i : Instr} {s t : State} (h : exec i s = .next t) :
    t.st = s.st ∨ ∃ x, i = .ldSTVx x ∧ t.st = s.reg x := by
  rcases exec_st h with hst | ⟨x, rfl⟩
  · exact .inl hst
  · exact .inr ⟨x, rfl, congrArg State.st (eq_of_next h)⟩

/-- Settles O46: a report changes neither timer nor keypad, and an instruction only as the access matrix says. -/
theorem stepNeverTicksATimer : Obligations.StepNeverTicksATimer := by
  intro s t h
  rcases step_cases h with ⟨-, rfl⟩ | ⟨-, -, rfl⟩ | ⟨-, i, hd, hi⟩
  · exact ⟨.inl rfl, .inl rfl, rfl⟩
  · exact ⟨.inl rfl, .inl rfl, rfl⟩
  · refine ⟨(exec_dt_value hi).imp_right ?_, (exec_st_value hi).imp_right ?_, (exec_key hi :)⟩
    · rintro ⟨x, rfl, hx⟩; exact ⟨x, hd, hx⟩
    · rintro ⟨x, rfl, hx⟩; exact ⟨x, hd, hx⟩

/-! ## What the checks decide -/

/-- The check passes exactly when `p` holds, and otherwise gives an error to report. -/
def Decides {α : Type} (c : Except Report α) (p : Prop) : Prop :=
  (p ∧ ∃ a, c = .ok a) ∨ (¬ p ∧ ∃ e, c = .error e ∧ e ≠ .ok)

theorem Decides.ofOk {α : Type} {c : Except Report α} {p : Prop} (hp : p) {a : α} (hc : c = .ok a) : Decides c p :=
  .inl ⟨hp, a, hc⟩

theorem Decides.ofError {α : Type} {c : Except Report α} {p : Prop} (hp : ¬ p) {e : Report} (hc : c = .error e)
    (he : e ≠ .ok) : Decides c p :=
  .inr ⟨hp, e, hc, he⟩

theorem inSpace_iff {a n : Nat} : inSpace a n ↔ a + n - 1 ≤ Config.memAddrMax := by
  simp only [inSpace, Config.memAddrMax]; omega

/-- The access meets the font exactly when it begins no later than the font ends and ends no earlier than the font
begins: then the later of the two beginnings lies in both. -/
theorem meetsFont_iff {a n : Nat} (hn : 0 < n) :
    meetsFont a n ↔ a ≤ Config.fontEnd ∧ Config.fontBase ≤ a + n - 1 := by
  simp only [meetsFont, Config.fontEnd, Config.fontBase]
  constructor
  · rintro ⟨k, hk, h1, h2⟩; omega
  · rintro ⟨h1, h2⟩; exact ⟨0x050 - a, by omega, by omega, by omega⟩

theorem checkRead_decides (kind : AccessKind) (a n : Nat) : Decides (checkRead kind a n) (inSpace a n) := by
  rw [inSpace_iff]
  rcases checkRead_cases kind a n with ⟨h, hc⟩ | ⟨h, hc⟩
  · exact .ofOk h hc
  · exact .ofError h.not_ge hc Report.noConfusion

theorem checkWrite_decides (kind : AccessKind) (a : Nat) {n : Nat} (hn : 0 < n) :
    Decides (checkWrite kind a n) (inSpace a n ∧ ¬ meetsFont a n) := by
  rw [inSpace_iff, meetsFont_iff hn]
  rcases checkWrite_cases kind a n with ⟨hs, hf, hc⟩ | ⟨hs, hc⟩ | ⟨-, hf1, hf2, hc⟩
  · exact .ofOk ⟨hs, by omega⟩ hc
  · exact .ofError (fun h => hs.not_ge h.1) hc Report.noConfusion
  · exact .ofError (fun h => h.2 ⟨hf1, hf2⟩) hc Report.noConfusion

theorem checkSprite_decides (a n : Nat) : Decides (checkSprite a n) (n = 0 ∨ inSpace a n) := by
  rcases n.eq_zero_or_pos with rfl | hn
  · exact .ofOk (.inl rfl) rfl
  · rw [checkSprite, if_neg hn.ne', or_iff_right hn.ne']
    exact checkRead_decides .sprite a n

theorem checkKey_decides (b : Byte) : Decides (checkKey b) (b.toNat < 16) := by
  rcases checkKey_cases b with ⟨h, hc⟩ | ⟨h, hc⟩
  · exact .ofOk h hc
  · exact .ofError h.not_gt hc Report.noConfusion

theorem push_decides (s : State) (w : Word) : Decides (s.push w) (s.sp.val < 16) := by
  rcases push_cases s w with ⟨h, hc⟩ | ⟨h, hc⟩
  · exact .ofOk h hc
  · exact .ofError h.not_lt hc Report.noConfusion

theorem pop_decides (s : State) : Decides s.pop (0 < s.sp.val) := by
  rcases pop_cases s with ⟨h, hc⟩ | ⟨h, hc⟩
  · exact .ofOk h hc
  · exact .ofError h.not_gt hc Report.noConfusion

/-! ## The instruction's own check -/

/-- A checked operation that reports nothing of its own after its check reports nothing exactly when the check passes. -/
theorem attempt_report_ok_iff {α : Type} {s t : State} {c : Except Report α} {k : α → StepResult} {p : Prop}
    (hs : s.report = .ok) (hc : Decides c p)
    (hk : ∀ a u, c = .ok a → k a = .next u → u.report = s.report) (h : attempt s c k = .next t) :
    t.report = .ok ↔ p := by
  rcases hc with ⟨hp, a, rfl⟩ | ⟨hp, e, rfl, he⟩
  · exact iff_of_true ((hk a t rfl h).trans hs) hp
  · obtain rfl := eq_of_next h
    exact iff_of_false he hp

/-- An instruction reports nothing exactly when its own check passes (60_exceptions.md R200, R207). -/
theorem exec_report_ok_iff {i : Instr} {s t : State} (hs : s.report = .ok) (h : exec i s = .next t) :
    t.report = .ok ↔ runsOk i s := by
  have hw := exec_writesOnlyItsElements h
  cases i with
  | ret =>
    refine attempt_report_ok_iff hs (pop_decides s) (fun p u hp hu => ?_) h
    rw [eq_of_next hu, jump_report, pop_report hp]
  | call a =>
    refine attempt_report_ok_iff hs (push_decides s s.pc) (fun v u hv hu => ?_) h
    rw [eq_of_next hu, jump_report, push_report hv]
  | drw x y n =>
    refine attempt_report_ok_iff hs (checkSprite_decides s.ea n) (fun _ u _ hu => ?_) h
    rw [eq_of_next hu, setFlag_report]
  | skp x | sknp x =>
    refine attempt_report_ok_iff hs (checkKey_decides (s.reg x)) (fun _ u _ hu => ?_) h
    rw [eq_of_next hu, skipIf_report]
  | ldB x =>
    refine attempt_report_ok_iff hs (checkWrite_decides .bcd s.ea (by decide)) (fun _ u _ hu => ?_) h
    rw [eq_of_next hu]
  | dumpRegs x =>
    refine attempt_report_ok_iff hs (checkWrite_decides .dump s.ea x.val.succ_pos) (fun _ u _ hu => ?_) h
    rw [eq_of_next hu]
  | loadRegs x =>
    refine attempt_report_ok_iff hs (checkRead_decides .loadRegs s.ea (x.val + 1)) (fun _ u _ hu => ?_) h
    rw [eq_of_next hu, loadRange_report]
  | _ => exact iff_of_true ((congrArg State.report hw :).trans hs) trivial

/-- Settles O12: a failed fetch and an invalid word report an error, and an instruction as its own check says. -/
theorem stepReturnsOkExactlyWhenItsChecksPass : Obligations.StepReturnsOkExactlyWhenItsChecksPass := by
  intro s
  constructor
  · rintro ⟨t, h, hok⟩
    rcases step_cases h with ⟨-, rfl⟩ | ⟨-, -, rfl⟩ | ⟨hpc, i, hd, hi⟩
    · cases hok
    · cases hok
    · exact ⟨hpc, i, hd, (exec_report_ok_iff (fetched_report s) hi).1 hok⟩
  · rintro ⟨hpc, i, hd, hrun⟩
    obtain ⟨t, ht⟩ := exec_completes i s.fetched
    exact ⟨t, (step_of_decode hpc hd).trans ht, (exec_report_ok_iff (fetched_report s) ht).2 hrun⟩

end Sys2Proof.Machine
end

section
/-! SUPPORT. How the jumps, the call, the return and the register skips end (41_control_flow.md), and that they leave
every part of the state but `PC` and the stack as it was. -/

namespace Sys2Proof.Machine

/-! ## Frames -/

theorem keepsAllBut_withPc (s : State) (w : Word) : keepsAllBut [.pc] s { s with pc := w } := by
  intro p hp
  cases p with
  | pc => exact absurd hp (by decide)
  | stack => exact ⟨rfl, rfl⟩
  | mem | regs => exact fun _ => rfl
  | i | dt | st | fb | key | draws | report => rfl

theorem keepsAllBut_withPcStack (s : State) (w : Word) (k : Vector Word 16) (n : Fin 17) :
    keepsAllBut [.pc, .stack] s { s with pc := w, stack := k, sp := n } := by
  intro p hp
  cases p with
  | pc | stack => exact absurd hp (by decide)
  | mem | regs => exact fun _ => rfl
  | i | dt | st | fb | key | draws | report => rfl

theorem keepsAllBut_skipIf (s : State) (c : Bool) : keepsAllBut [.pc] s (s.skipIf c) := by
  rw [skipIf_eq_withPc]
  exact keepsAllBut_withPc s _

/-! ## The jumps -/

/-- Settles O13: widening the address with zeros keeps its value. -/
theorem jumpSetsPcToItsAddress : Obligations.JumpSetsPcToItsAddress :=
  fun a s => ⟨s.jump (addrWord a), rfl, addrWord_toNat a, keepsAllBut_withPc s _⟩

/-- Settles O14: the sum of a 12-bit and an 8-bit value cannot wrap. -/
theorem jumpWithOffsetAddsRegisterZero : Obligations.JumpWithOffsetAddsRegisterZero :=
  fun a s => ⟨s.jump (s.offsetTarget a), rfl, offsetTarget_toNat s a, keepsAllBut_withPc s _⟩

/-! ## The call and the return -/

theorem exec_call_of_lt (a : Addr) {s : State} (h : s.sp.val < 16) :
    exec (.call a) s = .next { s with
      pc := addrWord a, stack := s.stack.set s.sp.val s.pc, sp := ⟨s.sp.val + 1, by omega⟩ } := by
  obtain ⟨t, ht⟩ := exec_completes (.call a) s
  rcases exec_call_cases ht with ⟨hfull, -⟩ | ⟨_, rfl⟩
  · omega
  · exact ht

theorem exec_call_of_full (a : Addr) {s : State} (h : s.sp.val = 16) :
    exec (.call a) s = .next { s with report := .stackOverflow s.pc } := by
  obtain ⟨t, ht⟩ := exec_completes (.call a) s
  rcases exec_call_cases ht with ⟨-, rfl⟩ | ⟨hlt, -⟩
  · exact ht
  · omega

theorem exec_ret_of_pos {s : State} (h : 0 < s.sp.val) :
    exec .ret s = .next { s with pc := s.stack[s.sp.val - 1], sp := ⟨s.sp.val - 1, by omega⟩ } := by
  obtain ⟨t, ht⟩ := exec_completes .ret s
  rcases exec_ret_cases ht with ⟨hempty, -⟩ | ⟨_, rfl⟩
  · omega
  · exact ht

theorem exec_ret_of_empty {s : State} (h : s.sp.val = 0) :
    exec .ret s = .next { s with report := .stackUnderflow s.pc } := by
  obtain ⟨t, ht⟩ := exec_completes .ret s
  rcases exec_ret_cases ht with ⟨-, rfl⟩ | ⟨hpos, -⟩
  · exact ht
  · omega

/-- Settles O15: the push writes one slot of the stack, or finds it full. -/
theorem callPushesTheReturnAddress : Obligations.CallPushesTheReturnAddress := by
  intro a s
  refine ⟨fun hlt => ⟨_, exec_call_of_lt a hlt, addrWord_toNat a, rfl, fun k => ?_,
    keepsAllBut_withPcStack s _ _ _⟩, exec_call_of_full a⟩
  rw [Vector.getElem_set]
  exact if_congr eq_comm rfl rfl

/-- Settles O16: the pop reads the slot below `SP` and lowers `SP` to it, or finds the stack empty. -/
theorem returnPopsIntoPc : Obligations.ReturnPopsIntoPc := by
  intro s
  refine ⟨fun k hk => ?_, exec_ret_of_empty⟩
  have htop : s.sp.val - 1 = k.val := by omega
  refine ⟨_, exec_ret_of_pos (by omega), ?_, htop, rfl, keepsAllBut_withPcStack s _ _ _⟩
  simp only [htop]

/-- Settles O17: the slot that the call pushes is the one that the return pops. -/
theorem returnUndoesCall : Obligations.ReturnUndoesCall := by
  intro a s hlt
  obtain ⟨t, hcall, -, hdepth, hslots, -⟩ := (callPushesTheReturnAddress a s).1 hlt
  refine ⟨t, hcall, fun t' hstack hsp => ?_⟩
  obtain ⟨u, hret, hpc, hback, -, hframe⟩ := (returnPopsIntoPc t').1 ⟨s.sp.val, hlt⟩ (by rw [hsp, hdepth])
  have hpushed : t.stack[s.sp.val] = s.pc := by simpa using hslots ⟨s.sp.val, hlt⟩
  exact ⟨u, hret, by simp only [hpc, hstack, hpushed], Fin.ext hback, hframe⟩

/-! ## The register skips -/

/-- An instruction that is a skip on `c` adds 2 to `PC` exactly when what `c` decides holds, and changes nothing else. -/
theorem skips_of_exec {i : Instr} {s : State} {c : Bool} {p : Prop} [Decidable p]
    (h : exec i s = .next (s.skipIf c)) (hc : c = true ↔ p) :
    ∃ t, exec i s = .next t ∧ t.pc = (if p then s.pc + 2 else s.pc) ∧ keepsAllBut [.pc] s t :=
  ⟨s.skipIf c, h, by simp only [skipIf_pc, hc], keepsAllBut_skipIf s c⟩

/-- Settles O18: each of the four is a skip on its Boolean comparison. -/
theorem compareSkipsAddTwoOnTheirCondition : Obligations.CompareSkipsAddTwoOnTheirCondition :=
  fun _ _ _ _ => ⟨skips_of_exec rfl beq_iff_eq, skips_of_exec rfl bne_iff_ne,
    skips_of_exec rfl beq_iff_eq, skips_of_exec rfl bne_iff_ne⟩

end Sys2Proof.Machine
end

section
/-! SUPPORT. What the register loads and the ALU write, result and flag, and that they leave every other register and
every other part of the state as it was; and from these the statements about the ALU (42_alu.md). -/

namespace Sys2Proof.Machine

/-! ## Frames -/

theorem keepsAllBut_withRegs (s : State) (v : Vector Byte 16) : keepsAllBut [.regs] s { s with v := v } := by
  intro p hp
  cases p with
  | regs => exact absurd hp (by decide)
  | stack => exact ⟨rfl, rfl⟩
  | mem => exact fun _ => rfl
  | i | pc | dt | st | fb | key | draws | report => rfl

theorem keepsAllBut_withRegsDraws (s : State) (v : Vector Byte 16) (k : Nat) :
    keepsAllBut [.regs, .draws] s { s with v := v, draws := k } := by
  intro p hp
  cases p with
  | regs | draws => exact absurd hp (by decide)
  | stack => exact ⟨rfl, rfl⟩
  | mem => exact fun _ => rfl
  | i | pc | dt | st | fb | key | report => rfl

theorem otherRegsSame_setReg (s : State) (x : Reg) (b : Byte) : otherRegsSame x s (s.setReg x b) :=
  fun _ hr => reg_setReg_of_ne s hr b

theorem otherRegsButFlagSame_setResultFlag (s : State) (x : Reg) (b : Byte) (f : Bool) :
    otherRegsButFlagSame x s (s.setResultFlag x b f) := by
  intro r hx hf
  rw [reg_setResultFlag, if_neg hf, if_neg hx]

/-! ## The two shapes of an ALU instruction -/

/-- An instruction that only writes `b` to one register gives that register what is known of `b` and leaves the flag
register and all else. -/
theorem writesReg_of_exec {i : Instr} {s : State} {x : Reg} {b : Byte} (P : Byte → Prop)
    (h : exec i s = .next (s.setReg x b)) (hb : P b) :
    ∃ t, exec i s = .next t ∧ P (t.reg x) ∧ otherRegsSame x s t ∧ keepsAllBut [.regs] s t :=
  ⟨_, h, (reg_setReg_self s x b).symm ▸ hb, otherRegsSame_setReg s x b, keepsAllBut_withRegs s _⟩

theorem writesBits_of_exec {i : Instr} {s : State} {x y : Reg} {c : Byte} (op : Bool → Bool → Bool)
    (h : exec i s = .next (s.setReg x c))
    (hc : ∀ b, c.getLsbD b = op ((s.reg x).getLsbD b) ((s.reg y).getLsbD b)) :
    ∃ t, exec i s = .next t ∧
      (∀ b : Fin 8, (t.reg x).getLsbD b = op ((s.reg x).getLsbD b) ((s.reg y).getLsbD b)) ∧
      otherRegsSame x s t ∧ keepsAllBut [.regs] s t := by
  obtain ⟨t, ht, hx, hframe⟩ := writesReg_of_exec (· = c) h rfl
  exact ⟨t, ht, fun b => hx ▸ hc b, hframe⟩

/-- An instruction that writes a result and then the flag (42_alu.md R121): where the result's register is the flag
register, the flag alone is left. -/
theorem writesResultFlag_of_exec {i : Instr} {s : State} {x : Reg} {b : Byte} {f : Bool} (P Q : Byte → Prop)
    (h : exec i s = .next (s.setResultFlag x b f)) (hb : P b) (hf : Q (flagByte f)) :
    ∃ t, exec i s = .next t ∧ (x ≠ flagReg → P (t.reg x)) ∧ Q (t.reg flagReg) ∧
      otherRegsButFlagSame x s t ∧ keepsAllBut [.regs] s t := by
  refine ⟨_, h, fun hx => ?_, ?_, otherRegsButFlagSame_setResultFlag s x b f, keepsAllBut_withRegs s _⟩
  · rwa [reg_setResultFlag, if_neg hx, if_pos rfl]
  · rwa [reg_setResultFlag, if_pos rfl]

/-! ## Results and flags as numbers (R120) -/

theorem flagByte_decide (p : Prop) [Decidable p] : flagByte (decide p) = if p then 1 else 0 := by
  by_cases hp : p <;> simp [flagByte, hp]

theorem toNat_sub_byte (a b : Byte) : (a - b).toNat = (a.toNat + 256 - b.toNat) % 256 := by
  rw [BitVec.toNat_sub]; omega

theorem toNat_shiftedRight (a : Byte) : (shiftedRight a).toNat = a.toNat / 2 := by
  simp only [shiftedRight, BitVec.toNat_ofNat]; omega

theorem toNat_shiftedLeft (a : Byte) : (shiftedLeft a).toNat = a.toNat * 2 % 256 :=
  BitVec.toNat_ofNat _ 8

/-- A bit tested for 1 gives a flag of the bit's value. -/
theorem toNat_flagByte_of_lt_two {n : Nat} (hn : n < 2) : (flagByte (decide (n = 1))).toNat = n := by
  obtain rfl | rfl : n = 0 ∨ n = 1 := by omega
  · rfl
  · rfl

theorem toNat_flagByte_lowBit (a : Byte) : (flagByte (lowBit a)).toNat = a.toNat % 2 :=
  toNat_flagByte_of_lt_two (Nat.mod_lt _ Nat.two_pos)

theorem toNat_flagByte_highBit (a : Byte) : (flagByte (highBit a)).toNat = a.toNat / 128 :=
  toNat_flagByte_of_lt_two (by omega)

/-! ## One register -/

/-- Settles O20: each of the three writes one register. -/
theorem loadsAndImmediateAddWriteOneRegister : Obligations.LoadsAndImmediateAddWriteOneRegister :=
  fun _ y nn s => ⟨writesReg_of_exec (· = nn) rfl rfl, writesReg_of_exec (· = s.reg y) rfl rfl,
    writesReg_of_exec (·.toNat = _) rfl (BitVec.toNat_add _ nn)⟩

/-- Settles O21: each of the three writes one register, bit by bit. -/
theorem bitwiseOperationsLeaveTheFlag : Obligations.BitwiseOperationsLeaveTheFlag :=
  fun _ _ _ => ⟨writesBits_of_exec or rfl fun _ => BitVec.getLsbD_or,
    writesBits_of_exec and rfl fun _ => BitVec.getLsbD_and,
    writesBits_of_exec bne rfl fun _ => BitVec.getLsbD_xor⟩

/-- Settles O26: the byte that is drawn is masked, so a bit that the mask clears is clear. -/
theorem randomByteIsMasked : Obligations.RandomByteIsMasked := by
  intro x nn s
  refine ⟨s.drawByte.2.setReg x (s.drawByte.1 &&& nn), rfl, reg_setReg_self _ x _, fun b hb => ?_, rfl,
    otherRegsSame_setReg s.drawByte.2 x _, keepsAllBut_withRegsDraws s _ _⟩
  rw [reg_setReg_self, BitVec.getLsbD_and, hb, Bool.and_false]

/-! ## A result and the flag -/

/-- Settles O22: the sum, then the carry. -/
theorem addRegistersSetsCarry : Obligations.AddRegistersSetsCarry :=
  fun _ _ _ => writesResultFlag_of_exec (·.toNat = _) (· = _) rfl (BitVec.toNat_add _ _) (flagByte_decide _)

/-- Settles O23: the difference, then not-borrow; `SUBN` is `SUB` with its operands exchanged. -/
theorem subtractionsSetNotBorrow : Obligations.SubtractionsSetNotBorrow :=
  fun _ _ _ => ⟨
    writesResultFlag_of_exec (·.toNat = _) (· = _) rfl (toNat_sub_byte _ _) (flagByte_decide _),
    writesResultFlag_of_exec (·.toNat = _) (· = _) rfl (toNat_sub_byte _ _) (flagByte_decide _)⟩

/-- Settles O24: the shifted value, then the bit moved out. -/
theorem shiftsMoveOneBitIntoTheFlag : Obligations.ShiftsMoveOneBitIntoTheFlag :=
  fun _ _ _ => ⟨
    writesResultFlag_of_exec (·.toNat = _) (·.toNat = _) rfl (toNat_shiftedRight _) (toNat_flagByte_lowBit _),
    writesResultFlag_of_exec (·.toNat = _) (·.toNat = _) rfl (toNat_shiftedLeft _) (toNat_flagByte_highBit _)⟩

/-! ## The shifts and their `Y` field (R134) -/

/-- A mask of ones over a slice of a word leaves the slice as it was. -/
theorem extractLsb'_masked (w : Word) {m : Word} {k n : Nat} (hm : m.extractLsb' k n = BitVec.allOnes n) :
    (w &&& m).extractLsb' k n = w.extractLsb' k n := by
  rw [BitVec.extractLsb'_and, hm, BitVec.and_allOnes]

/-- Words that differ in their `Y` field at most have every other field the same. -/
theorem fields_eq_of_masked {v w : Word} (h : v &&& 0xFF0F#16 = w &&& 0xFF0F#16) :
    fieldOp v = fieldOp w ∧ fieldX v = fieldX w ∧ fieldN v = fieldN w := by
  have slice (k n : Nat) (hm : (0xFF0F#16).extractLsb' k n = BitVec.allOnes n) :
      v.extractLsb' k n = w.extractLsb' k n := by
    rw [← extractLsb'_masked v hm, h, extractLsb'_masked w hm]
  exact ⟨slice 12 4 rfl, congrArg BitVec.toFin (slice 8 4 rfl), slice 0 4 rfl⟩

/-- Where every `Y` makes a word of the same instruction, a word with another `Y` is that instruction with that `Y`. -/
theorem decode_of_otherY {f : Reg → Instr} {op n : Nibble} {x : Reg} (hf : ∀ y, encode (f y) = packXYN op x y n)
    (hwf : ∀ y, (f y).wellFormed = true) {w w' : Word} (h : w &&& 0xFF0F#16 = w' &&& 0xFF0F#16) {y : Reg}
    (hd : decode w = some (f y)) : decode w' = some (f (fieldY w')) := by
  obtain ⟨-, hw⟩ := decodedWordEncodesBack w _ hd
  rw [← hw, hf] at h
  obtain ⟨hop, hx, hn⟩ := fields_eq_of_masked h
  rw [fieldOp_packXYN] at hop
  rw [fieldX_packXYN] at hx
  rw [fieldN_packXYN] at hn
  have hw' : encode (f (fieldY w')) = w' := by rw [hf, hop, hx, hn, packXYN_fields]
  have hd' := decodeOfEncodeIsTheInstruction (f (fieldY w')) (hwf _)
  rwa [hw'] at hd'

/-- What a result and a flag computed from `Vx` alone leave in `Vx` and `VF` depends on `Vx` alone. -/
theorem reg_setResultFlag_congr (g : Byte → Byte) (f : Byte → Bool) {s t : State} {x q : Reg}
    (h : t.reg x = s.reg x) (hq : q = x ∨ q = flagReg) :
    (t.setResultFlag x (g (t.reg x)) (f (t.reg x))).reg q =
      (s.setResultFlag x (g (s.reg x)) (f (s.reg x))).reg q := by
  rw [h, reg_setResultFlag, reg_setResultFlag]
  rcases hq with rfl | rfl <;> simp

/-- Settles O25: the decoder passes `Y` on and selects nothing by it, and the meaning never uses it. -/
theorem shiftsNeitherReadNorNeedY : Obligations.ShiftsNeitherReadNorNeedY := by
  refine ⟨fun w w' x y h => ⟨?_, ?_⟩, fun x y y' s => ⟨rfl, rfl⟩, fun x y r b s hr => ?_⟩
  · exact decode_of_otherY (f := .shr x) (fun _ => rfl) (fun _ => rfl) h
  · exact decode_of_otherY (f := .shl x) (fun _ => rfl) (fun _ => rfl) h
  · have hx : (s.setReg r b).reg x = s.reg x := reg_setReg_of_ne s hr.symm b
    exact ⟨⟨_, _, rfl, rfl, reg_setResultFlag_congr shiftedRight lowBit hx (.inl rfl),
        reg_setResultFlag_congr shiftedRight lowBit hx (.inr rfl)⟩,
      ⟨_, _, rfl, rfl, reg_setResultFlag_congr shiftedLeft highBit hx (.inl rfl),
        reg_setResultFlag_congr shiftedLeft highBit hx (.inr rfl)⟩⟩

end Sys2Proof.Machine
end

section
/-! SUPPORT. What the access checks answer in the words of Safety.lean, what a store through `I` leaves in memory, and
from these the statements about the address register and the transfers through it (43_memory_transfer.md). -/

namespace Sys2Proof.Machine

/-! ## Frames -/

theorem keepsAllBut_withI (s : State) (w : Word) : keepsAllBut [.i] s { s with i := w } := by
  intro p hp
  cases p with
  | i => exact absurd hp (by decide)
  | stack => exact ⟨rfl, rfl⟩
  | mem | regs => exact fun _ => rfl
  | pc | dt | st | fb | key | draws | report => rfl

theorem keepsAllBut_withMem (s : State) (m : Memory) : keepsAllBut [.mem] s { s with mem := m } := by
  intro p hp
  cases p with
  | mem => exact absurd hp (by decide)
  | stack => exact ⟨rfl, rfl⟩
  | regs => exact fun _ => rfl
  | i | pc | dt | st | fb | key | draws | report => rfl

theorem keepsAllBut_loadRange (s : State) (a : Nat) (x : Reg) : keepsAllBut [.regs] s (s.loadRange a x) := by
  rw [(loadRange_spec s a x).2]
  exact keepsAllBut_withRegs s _

/-! ## The address register -/

theorem toNat_add_byteWord (w : Word) (b : Byte) : (w + byteWord b).toNat = (w.toNat + b.toNat) % 65536 := by
  rw [BitVec.toNat_add, byteWord, BitVec.toNat_setWidth_of_le (by decide)]

/-- The last glyph address, of the value 0xFF, is far below 2^16. -/
theorem toNat_glyphAddr (b : Byte) : (glyphAddr b).toNat = 0x050 + 5 * b.toNat := by
  simp only [glyphAddr, Config.fontBase, Config.glyphBytes, BitVec.toNat_ofNat]; omega

/-- Settles O28: widening the address with zeros keeps its value. -/
theorem loadAddressSetsI : Obligations.LoadAddressSetsI :=
  fun a s => ⟨{ s with i := addrWord a }, rfl, addrWord_toNat a, keepsAllBut_withI s _⟩

/-- Settles O29: the sum wraps at 2^16, and no glyph address reaches it. -/
theorem addressArithmeticIsUnmasked : Obligations.AddressArithmeticIsUnmasked :=
  fun x s => ⟨⟨_, rfl, toNat_add_byteWord s.i (s.reg x), keepsAllBut_withI s _⟩,
    ⟨_, rfl, toNat_glyphAddr (s.reg x), keepsAllBut_withI s _⟩⟩

/-- Where the font is intact, byte `k` of a digit's glyph is the parameter `FONT`'s (20_memory.md R55). -/
theorem read_glyph {m : Memory} (hm : fontIntact m) {d k : Nat} (hd : d < 16) (hk : k < 5) :
    m.read (0x050 + 5 * d + k) = font.getD (5 * d + k) 0 := by
  have hin : inFont (0x050 + 5 * d + k) = true := by
    simp only [inFont, Config.fontBase, Config.fontEnd, Bool.and_eq_true, decide_eq_true_eq]; omega
  rw [read_font hm hin, initialByte_in_font (by omega) (by omega)]
  congr 1; omega

/-- Settles O35: the glyph address of a digit lies in the font, which the invariant keeps intact. -/
theorem glyphAddressFindsTheGlyph : Obligations.GlyphAddressFindsTheGlyph := by
  intro x s hs hdigit
  refine ⟨{ s with i := glyphAddr (s.reg x) }, rfl, fun k hk => ?_⟩
  rw [toNat_glyphAddr]
  exact read_glyph hs.font hdigit hk

/-! ## What the checks answer -/

section
variable (kind : AccessKind) {a n : Nat}

theorem checkRead_of_inSpace (h : inSpace a n) : checkRead kind a n = .ok () :=
  if_neg (inSpace_iff.1 h).not_gt

theorem checkRead_of_not_inSpace (h : ¬ inSpace a n) : checkRead kind a n = .error (.addressOutOfRange kind a n) :=
  if_pos (not_le.1 (mt inSpace_iff.2 h))

theorem checkWrite_of_not_inSpace (h : ¬ inSpace a n) :
    checkWrite kind a n = .error (.addressOutOfRange kind a n) :=
  if_pos (not_le.1 (mt inSpace_iff.2 h))

theorem checkWrite_of_meetsFont (hs : inSpace a n) (hf : meetsFont a n) :
    checkWrite kind a n = .error (.fontWrite kind a n) := by
  have hn : 0 < n := let ⟨_, hk, _⟩ := hf; Nat.zero_lt_of_lt hk
  rw [checkWrite, if_neg (inSpace_iff.1 hs).not_gt, if_pos ((meetsFont_iff hn).1 hf)]

theorem checkWrite_of_clear (hn : 0 < n) (hs : inSpace a n) (hf : ¬ meetsFont a n) :
    checkWrite kind a n = .ok () := by
  rw [checkWrite, if_neg (inSpace_iff.1 hs).not_gt, if_neg (mt (meetsFont_iff hn).2 hf)]

end

theorem attempt_of_eq_ok {α : Type} {s : State} {c : Except Report α} {k : α → StepResult} {a : α} (h : c = .ok a) :
    attempt s c k = k a := by
  rw [h, attempt_ok]

theorem attempt_of_eq_error {α : Type} {s : State} {c : Except Report α} {k : α → StepResult} {e : Report}
    (h : c = .error e) : attempt s c k = .next { s with report := e } := by
  rw [h, attempt_error]

/-! ## The stores -/

/-- Settles O32: the check fails with the report that the statement names, and a failed check ends the instruction. -/
theorem refusedStoresChangeNothing : Obligations.RefusedStoresChangeNothing :=
  fun _ _ => ⟨fun hs => attempt_of_eq_error (checkWrite_of_not_inSpace .bcd hs),
    fun hs hf => attempt_of_eq_error (checkWrite_of_meetsFont .bcd hs hf),
    fun hs => attempt_of_eq_error (checkWrite_of_not_inSpace .dump hs),
    fun hs hf => attempt_of_eq_error (checkWrite_of_meetsFont .dump hs hf)⟩

/-- An instruction that only stores `n` bytes through `I`, inside the space, puts byte `k` at `I + k` and leaves every
other byte and all else (R150). -/
theorem stores_of_exec {i : Instr} {s : State} {xs : List Byte} {n : Nat} (hn : xs.length = n)
    (hs : inSpace s.i.toNat n) (h : exec i s = .next { s with mem := s.mem.writeBytes s.i.toNat xs }) :
    ∃ t, exec i s = .next t ∧
      (∀ k (hk : k < xs.length), t.mem.read (s.i.toNat + k) = xs[k]) ∧
      (∀ a, a < s.i.toNat ∨ s.i.toNat + n ≤ a → t.mem.read a = s.mem.read a) ∧
      keepsAllBut [.mem] s t := by
  subst hn
  exact ⟨_, h, fun k hk => read_writeBytes_inside s.mem _ xs k hk hs,
    fun _ ha => read_writeBytes_outside s.mem _ xs ha, keepsAllBut_withMem s _⟩

theorem toNat_bcdDigits_getElem (b : Byte) (k : Nat) (hk : k < (bcdDigits b).length) :
    (bcdDigits b)[k].toNat = [b.toNat / 100, b.toNat / 10 % 10, b.toNat % 10][k]'hk := by
  match k, hk with
  | 0, _ => exact Nat.mod_eq_of_lt (by omega)
  | 1, _ => exact Nat.mod_eq_of_lt (by omega)
  | 2, _ => exact Nat.mod_eq_of_lt (by omega)

/-- Settles O30: the three bytes that are stored are the three digits. -/
theorem bcdStoreWritesThreeDigits : Obligations.BcdStoreWritesThreeDigits := by
  intro x s hs hf
  obtain ⟨t, ht, hread, hother, hframe⟩ := stores_of_exec (i := .ldB x) (xs := bcdDigits (s.reg x)) rfl hs
    (attempt_of_eq_ok (checkWrite_of_clear .bcd (by decide) hs hf))
  have hdigit (k : Nat) (hk : k < 3) := (congrArg BitVec.toNat (hread k hk)).trans (toNat_bcdDigits_getElem _ k hk)
  exact ⟨t, ht, hdigit 0 (by decide), hdigit 1 (by decide), hdigit 2 (by decide), hother, hframe⟩

/-- Settles O31: byte `k` that is stored is `V[k]`. -/
theorem registerDumpStoresTheRange : Obligations.RegisterDumpStoresTheRange := by
  intro x s hs hf
  have hlen := regRange_length s x
  obtain ⟨t, ht, hread, hother, hframe⟩ := stores_of_exec (i := .dumpRegs x) hlen hs
    (attempt_of_eq_ok (checkWrite_of_clear .dump x.val.succ_pos hs hf))
  refine ⟨t, ht, fun k hk => ?_, hother, hframe⟩
  rw [hread k.val (by omega), regRange_getElem]
  exact congrArg s.reg (Fin.ofNat_val_eq_self k)

/-! ## The load -/

/-- Settles O33: the load is checked, and it gives `V[k]` the byte at `I + k`. -/
theorem registerLoadReadsTheRange : Obligations.RegisterLoadReadsTheRange :=
  fun x s => ⟨fun hs => ⟨s.loadRange s.i.toNat x, attempt_of_eq_ok (checkRead_of_inSpace .loadRegs hs),
      (loadRange_spec s s.i.toNat x).1, keepsAllBut_loadRange s _ x⟩,
    fun hs => attempt_of_eq_error (checkRead_of_not_inSpace .loadRegs hs)⟩

/-- Settles O34: the dump keeps `I` and has stored `V[k]` at `I + k`, where the load reads it. -/
theorem loadUndoesDump : Obligations.LoadUndoesDump := by
  intro x s t u _ h hok hmem hi
  obtain ⟨hspace, hstored⟩ := exec_dumpRegs_of_ok h hok
  have hti : t.i = s.i := (congrArg State.i (exec_writesOnlyItsElements h) :)
  have hui : u.i = s.i := hi.trans hti
  obtain ⟨v, hv, hload, -⟩ := (registerLoadReadsTheRange x u).1 (by rw [hui]; exact inSpace_iff.2 hspace)
  refine ⟨v, hv, fun k hk => ?_⟩
  rw [hload, if_pos hk, hmem, hui, hstored k hk]

end Sys2Proof.Machine
end

section
/-! SUPPORT. Which pixels a draw plots, in the words of Safety.lean, that it plots none of them twice, and from these the
statements about the framebuffer (44_display.md). -/

namespace Sys2Proof.Machine

/-! ## Frames -/

theorem keepsAllBut_withFb (s : State) (f : Framebuffer) : keepsAllBut [.fb] s { s with fb := f } := by
  intro p hp
  cases p with
  | fb => exact absurd hp (by decide)
  | stack => exact ⟨rfl, rfl⟩
  | mem | regs => exact fun _ => rfl
  | i | pc | dt | st | key | draws | report => rfl

theorem keepsAllBut_withFbRegs (s : State) (f : Framebuffer) (v : Vector Byte 16) :
    keepsAllBut [.fb, .regs] s { s with fb := f, v := v } := by
  intro p hp
  cases p with
  | fb | regs => exact absurd hp (by decide)
  | stack => exact ⟨rfl, rfl⟩
  | mem => exact fun _ => rfl
  | i | pc | dt | st | key | draws | report => rfl

/-! ## The pixels of a sprite (R171, R172) -/

theorem mem_rowPixels {b : Byte} {y x0 : Nat} {r : Fin 32} {c : Fin 64} :
    (r, c) ∈ rowPixels b y x0 ↔
      ∃ col, col < 8 ∧ r.val = y % 32 ∧ c.val = (x0 + col) % 64 ∧ b.getLsbD (7 - col) = true := by
  simp only [rowPixels, List.mem_map, List.mem_filter, List.mem_range, Prod.mk.injEq]
  refine exists_congr fun col => ⟨?_, ?_⟩
  · rintro ⟨⟨hcol, hbit⟩, rfl, rfl⟩; exact ⟨hcol, rfl, rfl, hbit⟩
  · rintro ⟨hcol, hr, hc, hbit⟩; exact ⟨⟨hcol, hbit⟩, Fin.ext hr.symm, Fin.ext hc.symm⟩

/-- The eight columns of a row are too few to wrap onto one another. -/
theorem nodup_rowPixels (b : Byte) (y x0 : Nat) : (rowPixels b y x0).Nodup := by
  refine List.Nodup.map_on (fun i hi j hj hij => ?_) (List.nodup_range.filter _)
  have hi8 : i < 8 := List.mem_range.1 (List.mem_of_mem_filter hi)
  have hj8 : j < 8 := List.mem_range.1 (List.mem_of_mem_filter hj)
  have hcol : (x0 + i) % 64 = (x0 + j) % 64 := congrArg (fun a => a.2.val) hij
  omega

/-- At most 32 rows are too few to wrap onto one another. -/
theorem nodup_spritePixels (m : Memory) (a x0 y0 : Nat) {n : Nat} (hn : n ≤ 32) :
    (spritePixels m a x0 y0 n).Nodup := by
  refine List.nodup_flatMap.2 ⟨fun row _ => nodup_rowPixels _ _ _, ?_⟩
  refine List.nodup_range.pairwise_of_forall_ne fun i hi j hj hij => ?_
  rintro ⟨r, c⟩ hri hrj
  obtain ⟨_, _, hri, -⟩ := mem_rowPixels.1 hri
  obtain ⟨_, _, hrj, -⟩ := mem_rowPixels.1 hrj
  have hin := List.mem_range.1 hi
  have hjn := List.mem_range.1 hj
  omega

/-- Taking the start coordinates modulo the screen first does not move a pixel. -/
theorem mem_spritePixels {s : State} {x y : Reg} {n : Nat} {r : Fin 32} {c : Fin 64} :
    (r, c) ∈ spritePixels s.mem s.ea ((s.reg x).toNat % 64) ((s.reg y).toNat % 32) n ↔ spriteCovers s x y n r c := by
  simp only [spritePixels, List.mem_flatMap, List.mem_range, mem_rowPixels, Nat.mod_add_mod, spriteCovers, State.ea,
    exists_and_left]

/-! ## The draw as a whole -/

/-- The canvas that `DRW Vx, Vy, n` leaves (R172). -/
def State.drawn (s : State) (x y : Reg) (n : Nat) : Canvas :=
  Canvas.drawSprite ⟨s.fb, false⟩ s.mem s.ea ((s.reg x).toNat % 64) ((s.reg y).toNat % 32) n

/-- No pixel is plotted twice, so the covered ones are flipped, and a collision is a covered pixel that was lit. -/
theorem drawn_spec (s : State) (x y : Reg) {n : Nat} (hn : n ≤ 32) :
    (∀ r c, spriteCovers s x y n r c → Framebuffer.pixel (s.drawn x y n).fb r c = !Framebuffer.pixel s.fb r c) ∧
    (∀ r c, ¬ spriteCovers s x y n r c → Framebuffer.pixel (s.drawn x y n).fb r c = Framebuffer.pixel s.fb r c) ∧
    ((s.drawn x y n).collided = true ↔ ∃ r c, spriteCovers s x y n r c ∧ Framebuffer.pixel s.fb r c = true) := by
  simp only [State.drawn, drawSprite_eq_plotAll, ← mem_spritePixels]
  simpa using plotAll_spec _ (nodup_spritePixels s.mem s.ea _ _ hn) ⟨s.fb, false⟩

theorem checkSprite_of_inSpace {a n : Nat} (h : n = 0 ∨ inSpace a n) : checkSprite a n = .ok () := by
  rcases checkSprite_decides a n with ⟨-, _, hc⟩ | ⟨hn, -⟩
  · exact hc
  · exact absurd h hn

theorem checkSprite_of_not_inSpace {a n : Nat} (hn : 0 < n) (h : ¬ inSpace a n) :
    checkSprite a n = .error (.addressOutOfRange .sprite a n) := by
  rw [checkSprite, if_neg hn.ne', checkRead_of_not_inSpace .sprite h]

theorem exec_drw_of_inSpace (x y : Reg) {n : Nat} {s : State} (h : n = 0 ∨ inSpace s.i.toNat n) :
    exec (.drw x y n) s =
      .next ({ s with fb := (s.drawn x y n).fb }.setFlag (s.drawn x y n).collided) :=
  attempt_of_eq_ok (checkSprite_of_inSpace h)

/-! ## The statements -/

/-- Settles O37: the blank screen has no lit pixel. -/
theorem clearScreenPutsOutEveryPixel : Obligations.ClearScreenPutsOutEveryPixel :=
  fun s => ⟨{ s with fb := blankScreen }, rfl, pixel_blankScreen, keepsAllBut_withFb s _⟩

/-- Settles O39: the range check fails before any pixel is drawn. -/
theorem drawPastMemoryChangesNothing : Obligations.DrawPastMemoryChangesNothing :=
  fun _ _ _ _ hn hs => attempt_of_eq_error (checkSprite_of_not_inSpace hn hs)

/-- Settles O38: the canvas flips what the sprite covers, and the flag is the canvas's collision. -/
theorem drawXorsTheSpriteAndReportsCollision : Obligations.DrawXorsTheSpriteAndReportsCollision := by
  intro x y n s hn hs
  obtain ⟨hflip, hkeep, hcollided⟩ := drawn_spec s x y (n := n) (by omega)
  have hflag : ({ s with fb := (s.drawn x y n).fb }.setFlag (s.drawn x y n).collided).reg 15 =
      flagByte (s.drawn x y n).collided := reg_setReg_self _ flagReg _
  refine ⟨_, exec_drw_of_inSpace x y hs, hflip, hkeep, fun hlit => ?_, fun hdark => ?_,
    otherRegsSame_setReg { s with fb := (s.drawn x y n).fb } flagReg _, keepsAllBut_withFbRegs s _ _⟩
  · rw [hflag, hcollided.2 hlit]; rfl
  · have hnone : (s.drawn x y n).collided = false := by
      refine Bool.eq_false_iff.2 fun h => ?_
      obtain ⟨r, c, hcov, hlit⟩ := hcollided.1 h
      exact Bool.eq_false_iff.1 (hdark r c hcov) hlit
    rw [hflag, hnone]; rfl

/-- What a sprite covers depends on the memory, on `I` and on the two coordinates modulo the screen. -/
theorem spriteCovers_congr {s t : State} {x y : Reg} {n : Nat} (hmem : ∀ a, t.mem.read a = s.mem.read a)
    (hi : t.i = s.i) (hx : (t.reg x).toNat % 64 = (s.reg x).toNat % 64)
    (hy : (t.reg y).toNat % 32 = (s.reg y).toNat % 32) (r : Fin 32) (c : Fin 64) :
    spriteCovers t x y n r c ↔ spriteCovers s x y n r c := by
  simp only [spriteCovers, hmem, hi, Nat.add_mod (t.reg x).toNat, Nat.add_mod (t.reg y).toNat, hx, hy, ← Nat.add_mod]

/-- Settles O40: both draws flip the same pixels, and of these the second finds lit just those that the first lit. -/
theorem drawingTwiceRestoresTheScreen : Obligations.DrawingTwiceRestoresTheScreen := by
  intro x y n s t u hn hreport hst hok hx hy htu
  have hs : n = 0 ∨ inSpace s.i.toNat n := (exec_report_ok_iff hreport hst).1 hok
  obtain ⟨t', ht', hflip, hkeep, -, -, -, hframe⟩ := drawXorsTheSpriteAndReportsCollision x y n s hn hs
  obtain rfl : t = t' := eq_of_next (ht'.symm.trans hst)
  have hi : t.i = s.i := hframe .i (by decide)
  obtain ⟨u', hu', hflip', hkeep', hlit, hdark, -, -⟩ :=
    drawXorsTheSpriteAndReportsCollision x y n t hn (hi ▸ hs)
  obtain rfl : u = u' := eq_of_next (hu'.symm.trans htu)
  simp only [spriteCovers_congr (hframe .mem (by decide)) hi hx hy] at hflip' hkeep' hlit hdark
  have hnew (r : Fin 32) (c : Fin 64) : s.fb[r.val][c.val] = false ∧ t.fb[r.val][c.val] = true ↔
      spriteCovers s x y n r c ∧ t.fb[r.val][c.val] = true := by
    refine and_congr_left fun hon => ?_
    by_cases hcov : spriteCovers s x y n r c
    · rw [hflip r c hcov, Bool.not_eq_true'] at hon; exact iff_of_true hon hcov
    · rw [hkeep r c hcov] at hon; exact iff_of_false (by rw [hon]; decide) hcov
  simp only [hnew]
  refine ⟨framebuffer_ext fun r c => ?_, fun hone => ?_, hlit⟩
  · show u.fb[r.val][c.val] = s.fb[r.val][c.val]
    by_cases hcov : spriteCovers s x y n r c
    · rw [hflip' r c hcov, hflip r c hcov, Bool.not_not]
    · rw [hkeep' r c hcov, hkeep r c hcov]
  · by_contra hnone
    have hzero : u.reg 15 = 0 :=
      hdark fun r c hcov => Bool.eq_false_iff.2 fun hon => hnone ⟨r, c, hcov, hon⟩
    exact absurd (hzero.symm.trans hone) (by decide)

end Sys2Proof.Machine
end

section
/-! SUPPORT. What the key check and the key wait answer, and from these the statements about the keypad and the timers
(45_input_timers.md). -/

namespace Sys2Proof.Machine

/-! ## The key skips (R180, R181, R186) -/

theorem checkKey_of_toNat_eq {b : Byte} {k : Fin 16} (h : b.toNat = k.val) : checkKey b = .ok k := by
  rcases checkKey_cases b with ⟨hlt, hc⟩ | ⟨hge, -⟩
  · exact hc.trans (congrArg Except.ok (Fin.ext h))
  · omega

theorem checkKey_of_gt {b : Byte} (h : 15 < b.toNat) : checkKey b = .error (.addressOutOfRange .keypad b.toNat 1) :=
  dif_neg (Nat.not_lt.2 h)

/-- Settles O41: past the key check each of the two is a skip on the named key, and a failed check ends it. -/
theorem keySkipsTestTheNamedKey : Obligations.KeySkipsTestTheNamedKey :=
  fun _ _ => ⟨fun _ hk => ⟨skips_of_exec (attempt_of_eq_ok (checkKey_of_toNat_eq hk)) Iff.rfl,
      skips_of_exec (attempt_of_eq_ok (checkKey_of_toNat_eq hk)) (.of_eq (Bool.not_eq_true' _))⟩,
    fun hx => ⟨attempt_of_eq_error (checkKey_of_gt hx), attempt_of_eq_error (checkKey_of_gt hx)⟩⟩

/-! ## The key wait (R182) -/

theorem exec_ldVxK_of_lowest (x : Reg) {s : State} {k : Fin 16} (hk : s.key[k.val] = true)
    (hlow : ∀ j : Fin 16, j < k → s.key[j.val] = false) :
    exec (.ldVxK x) s = .next (s.setReg x (BitVec.ofNat 8 k.val)) := by
  have hfirst : firstPressed s.key = some k.val := firstPressed_some.2 ⟨k.isLt, hk, hlow⟩
  simp only [exec, execLdVxK, hfirst]

theorem exec_ldVxK_of_none (x : Reg) {s : State} (h : ∀ k : Fin 16, s.key[k.val] = false) :
    exec (.ldVxK x) s = .next (s.jump (s.pc - 2)) := by
  have hfirst : firstPressed s.key = none := firstPressed_none.2 h
  simp only [exec, execLdVxK, hfirst]

/-- Settles O42: a key index fits a byte, and a jump changes `PC` alone. -/
theorem keyWaitTakesTheLowestKey : Obligations.KeyWaitTakesTheLowestKey := by
  refine fun x s => ⟨fun k hk hlow => ?_, fun h => ?_⟩
  · have hbyte : (BitVec.ofNat 8 k.val).toNat = k.val := Nat.mod_eq_of_lt (by omega)
    exact writesReg_of_exec (·.toNat = k.val) (exec_ldVxK_of_lowest x hk hlow) hbyte
  · exact ⟨_, exec_ldVxK_of_none x h, rfl, keepsAllBut_withPc s _⟩

/-- Moving `PC` back by 2 undoes what the fetch did to it (40_step.md R90). -/
theorem fetched_jump_back (s : State) : s.fetched.jump (s.fetched.pc - 2) = { s with report := .ok } := by
  rw [fetched_pc, BitVec.add_sub_cancel]
  rfl

theorem step_keyWait {s : State} {x : Reg} (hpc : s.pc.toNat < 0x0FFF) (hd : decode s.fetchWord = some (.ldVxK x))
    (hkeys : ∀ j : Fin 16, s.key[j.val] = false) : step s = .next { s with report := .ok } := by
  rw [step_of_decode hpc hd, exec_ldVxK_of_none x (s := s.fetched) hkeys, fetched_jump_back]

/-- Settles O43, by induction on the number of steps: after each of them the same wait is run again. -/
theorem keyWaitHoldsThePc : Obligations.KeyWaitHoldsThePc := by
  intro s x k hpc hd hkeys
  induction k generalizing s with
  | zero => exact core_run_succ 0 (step_keyWait hpc hd hkeys)
  | succ k ih => exact (core_run_succ (k + 1) (step_keyWait hpc hd hkeys)).trans (ih _ hpc hd hkeys)

/-! ## The timer transfers (R183 to R185) -/

theorem keepsAllBut_withDt (s : State) (b : Byte) : keepsAllBut [.dt] s { s with dt := b } := by
  intro p hp
  cases p with
  | dt => exact absurd hp (by decide)
  | stack => exact ⟨rfl, rfl⟩
  | mem | regs => exact fun _ => rfl
  | i | pc | st | fb | key | draws | report => rfl

theorem keepsAllBut_withSt (s : State) (b : Byte) : keepsAllBut [.st] s { s with st := b } := by
  intro p hp
  cases p with
  | st => exact absurd hp (by decide)
  | stack => exact ⟨rfl, rfl⟩
  | mem | regs => exact fun _ => rfl
  | i | pc | dt | fb | key | draws | report => rfl

/-- Settles O44: one transfer is a register write, the other two write one timer each. -/
theorem timerTransfersCopyOneByte : Obligations.TimerTransfersCopyOneByte :=
  fun _ s => ⟨writesReg_of_exec (· = s.dt) rfl rfl, ⟨_, rfl, rfl, keepsAllBut_withDt s _⟩,
    ⟨_, rfl, rfl, keepsAllBut_withSt s _⟩⟩

end Sys2Proof.Machine
end

section
/-! SUPPORT. What every host operation keeps, how runs of host operations go on, that an instruction which transfers no
timer does the same whatever the timers hold, and from these the statements about reports, ticks and runs
(60_exceptions.md). -/

namespace Sys2Proof.Machine

/-! ## Finite runs of host operations (R225, R226) -/

/-- The induction over finite runs: what every host operation keeps, every finite run completes with. -/
theorem runHost_keeps {P : State → Prop} (hP : ∀ op s t, P s → hostStep op s = .next t → P t)
    (ops : List HostOp) {s : State} (hs : P s) : ∃ t, runHost ops s = .next t ∧ P t := by
  induction ops generalizing s with
  | nil => exact ⟨s, rfl, hs⟩
  | cons op ops ih =>
    obtain ⟨u, hu⟩ := hostStep_completes op s
    rw [runHost_cons hu]
    exact ih (hP op s u hs hu)

/-- A load refuses its bytes, or places them all from 0x200 upward (70_reset_and_hazards.md R242, R243). -/
theorem load_fst_cases (bytes : List Byte) (s : State) :
    (load bytes s).1 = s ∨ (load bytes s).1 = { s with mem := s.mem.writeBytes Config.progBase bytes } := by
  unfold load
  split
  · exact .inl rfl
  · split
    · exact .inl rfl
    · exact .inr rfl

/-- The program area begins above the font. -/
theorem inFont_progBase_add (k : Nat) : inFont (Config.progBase + k) = false := by
  simp only [inFont, Config.fontBase, Config.fontEnd, Config.progBase, Bool.and_eq_false_iff, decide_eq_false_iff_not]
  omega

theorem Inv.load {s : State} (hs : Inv s) (bytes : List Byte) : Inv (load bytes s).1 := by
  rcases load_fst_cases bytes s with h | h <;> rw [h]
  · exact hs
  · exact {
      memCanonical := wf_writeBytes hs.memCanonical _ bytes
      font := fontIntact_writeBytes hs.font _ bytes fun k _ => inFont_progBase_add k
      pcRange := hs.pcRange
      stackRange := hs.stackRange }

/-- A tick writes the timers and a key write the keypad, of which the invariant does not speak; a reset leaves the
constructed state in all that it speaks of. -/
theorem hostStep_keeps_inv (op : HostOp) (s t : State) (hs : Inv s) (h : hostStep op s = .next t) : Inv t := by
  cases op with
  | step => exact stepKeepsTheInvariant s t hs (hostStep_step s ▸ h)
  | load bytes => exact eq_of_next h ▸ hs.load bytes
  | reset =>
    obtain ⟨hmem, hfont, hpc, hstack⟩ := constructionMeetsTheInvariant
    exact eq_of_next h ▸ ⟨hmem, hfont, hpc, hstack⟩
  | tick | setKey | readFramebuffer =>
    exact eq_of_next h ▸ ⟨hs.memCanonical, hs.font, hs.pcRange, hs.stackRange⟩

/-- Settles O58, by induction on the list of operations: each completes and keeps the invariant. -/
theorem everyHostRunKeepsTheInvariant : Obligations.EveryHostRunKeepsTheInvariant :=
  fun ops _ hs => runHost_keeps hostStep_keeps_inv ops hs

/-! ## Infinite runs (R226) -/

theorem runHost_completes (ops : List HostOp) (s : State) : ∃ t, runHost ops s = .next t :=
  let ⟨t, h, _⟩ := runHost_keeps (P := fun _ => True) (fun _ _ _ _ _ => trivial) ops (s := s) trivial
  ⟨t, h⟩

theorem runHost_singleton (op : HostOp) (s : State) : runHost [op] s = hostStep op s := by
  obtain ⟨t, ht⟩ := hostStep_completes op s
  rw [runHost_cons ht, runHost_nil, ht]

/-- The states of an infinite run are the ends of its finite runs. -/
theorem infiniteRun_eq_runHost (ops : Nat → HostOp) (s : State) (k : Nat) :
    infiniteRun ops s k = runHost (firstOps ops k) s := by
  induction k with
  | zero => rfl
  | succ k ih =>
    obtain ⟨t, ht⟩ := runHost_completes (firstOps ops k) s
    rw [infiniteRun_succ (ih.trans ht), firstOps_succ, runHost_append ht, runHost_singleton]

theorem firstOps_const (op : HostOp) (k : Nat) : firstOps (fun _ => op) k = List.replicate k op := by
  simp [firstOps]

/-- When the host only steps, its run is the engine's own. -/
theorem runHost_replicate_step (k : Nat) (s : State) :
    runHost (List.replicate k .step) s = Sys2Proof.core.run k s := by
  induction k generalizing s with
  | zero => rfl
  | succ k ih =>
    obtain ⟨t, ht⟩ := step_completes s
    rw [List.replicate_succ, runHost_cons ((hostStep_step s).trans ht), ih]
    exact (core_run_succ k ht).symm

/-- Settles O55: the run before operation `k` is a finite run, which completes, and so does the operation. -/
theorem infiniteRunsGoOnThroughTheirFiniteRuns : Obligations.InfiniteRunsGoOnThroughTheirFiniteRuns := by
  refine ⟨fun ops s k => ?_, fun s k => ?_⟩
  · obtain ⟨t, ht⟩ := runHost_completes (firstOps ops k) s
    obtain ⟨u, hu⟩ := hostStep_completes (ops k) t
    have hk : infiniteRun ops s k = .next t := (infiniteRun_eq_runHost ops s k).trans ht
    exact ⟨t, u, hk, (infiniteRun_succ hk).trans hu, hu, ht⟩
  · rw [infiniteRun_eq_runHost, firstOps_const]
    exact runHost_replicate_step k s

/-! ## Reports (R200, R201) -/

/-- Settles O10: an instruction that changes the report changes nothing else. -/
theorem errorLeavesTheStateAfterTheFetch : Obligations.ErrorLeavesTheStateAfterTheFetch := by
  intro i s t hs h herr
  obtain ⟨u, hu, hshape⟩ := exec_errorOrEffect i s
  obtain rfl : u = t := eq_of_next (h.symm.trans hu)
  exact hshape.resolve_left fun hsame => herr (hsame.trans hs)

/-- A checked operation whose check fails ends with the report of the check. -/
theorem report_of_attempt_error {α : Type} {s t : State} {c : Except Report α} {k : α → StepResult} {e : Report}
    (hc : c = .error e) (h : attempt s c k = .next t) : t.report = e := by
  rw [eq_of_next ((attempt_of_eq_error hc).symm.trans h)]

/-- The report of an instruction whose store fails its check: the range test comes first (20_memory.md R58). -/
theorem report_of_refusedStore {s t : State} {kind : AccessKind} {a n : Nat} {k : Unit → StepResult}
    (h : attempt s (checkWrite kind a n) k = .next t) (hn : ¬ (inSpace a n ∧ ¬ meetsFont a n)) :
    (t.report = .addressOutOfRange kind a n ∧ ¬ inSpace a n) ∨
    (t.report = .fontWrite kind a n ∧ meetsFont a n) := by
  by_cases hspace : inSpace a n
  · have hfont : meetsFont a n := not_not.1 fun hf => hn ⟨hspace, hf⟩
    exact .inr ⟨report_of_attempt_error (checkWrite_of_meetsFont kind hspace hfont) h, hfont⟩
  · exact .inl ⟨report_of_attempt_error (checkWrite_of_not_inSpace kind hspace) h, hspace⟩

/-- Settles O11: an instruction that reports has failed its own check, which gives the report. -/
theorem onlyTheListedInstructionsReport : Obligations.OnlyTheListedInstructionsReport := by
  intro i s t hs h herr
  have hfail : ¬ runsOk i s := fun hrun => herr ((exec_report_ok_iff hs h).2 hrun)
  cases i with
  | ret =>
    have hempty : s.sp.val = 0 := Nat.eq_zero_of_not_pos hfail
    rw [eq_of_next ((exec_ret_of_empty hempty).symm.trans h)]
    exact ⟨rfl, hempty⟩
  | call a =>
    have hfull : s.sp.val = 16 := Nat.le_antisymm (Nat.le_of_lt_succ s.sp.isLt) (Nat.not_lt.1 hfail)
    rw [eq_of_next ((exec_call_of_full a hfull).symm.trans h)]
    exact ⟨rfl, hfull⟩
  | drw x y n =>
    obtain ⟨hn, hspace⟩ := not_or.1 hfail
    have hpos : 0 < n := Nat.pos_of_ne_zero hn
    exact ⟨report_of_attempt_error (checkSprite_of_not_inSpace hpos hspace) h, hpos, hspace⟩
  | ldB x => exact report_of_refusedStore h hfail
  | dumpRegs x => exact report_of_refusedStore h hfail
  | loadRegs x => exact ⟨report_of_attempt_error (checkRead_of_not_inSpace .loadRegs hfail) h, hfail⟩
  | skp x | sknp x =>
    have hkey : 15 < (s.reg x).toNat := Nat.lt_of_succ_le (Nat.le_of_not_lt hfail)
    exact ⟨report_of_attempt_error (checkKey_of_gt hkey) h, hkey⟩
  | _ => exact hfail trivial

/-! ## The timers under ticks (R210, R211) -/

/-- The state with its two timers replaced: what a tick leaves, and what an instruction that transfers no timer does not
look at. -/
def State.withTimers (s : State) (d e : Byte) : State := { s with dt := d, st := e }

@[simp] theorem withTimers_dt (s : State) (d e : Byte) : (s.withTimers d e).dt = d := rfl
@[simp] theorem withTimers_st (s : State) (d e : Byte) : (s.withTimers d e).st = e := rfl

theorem tick_fst (s : State) : (tick s).1 = s.withTimers (timerTick s.dt) (timerTick s.st) := rfl

theorem keepsAllBut_withTimers (s : State) (d e : Byte) : keepsAllBut [.dt, .st] s (s.withTimers d e) := by
  intro p hp
  cases p with
  | dt | st => exact absurd hp (by decide)
  | stack => exact ⟨rfl, rfl⟩
  | mem | regs => exact fun _ => rfl
  | i | pc | fb | key | draws | report => rfl

theorem toNat_timerTick (b : Byte) : (timerTick b).toNat = b.toNat - 1 := by
  unfold timerTick
  split
  · next h => rw [h]; rfl
  · next h => bv_omega

/-- `k` ticks write the timers alone, and lower each by `k`, never below 0. -/
theorem ticks_spec (k : Nat) (s : State) :
    ∃ d e : Byte, ticks k s = s.withTimers d e ∧ d.toNat = s.dt.toNat - k ∧ e.toNat = s.st.toNat - k := by
  induction k generalizing s with
  | zero => exact ⟨s.dt, s.st, rfl, rfl, rfl⟩
  | succ k ih =>
    obtain ⟨d, e, hticks, hd, he⟩ := ih (tick s).1
    refine ⟨d, e, hticks, ?_, ?_⟩
    · rw [hd, tick_fst, withTimers_dt, toNat_timerTick, Nat.sub_sub, Nat.add_comm 1]
    · rw [he, tick_fst, withTimers_st, toNat_timerTick, Nat.sub_sub, Nat.add_comm 1]

/-- The tone of a tick looks at `ST` before the tick (decision D22). -/
theorem tick_snd_iff (s : State) : (tick s).2 = true ↔ s.st.toNat = 1 :=
  beq_iff_eq.trans BitVec.toNat_inj.symm

/-- Settles O49: the ticks write the two timers alone, and the next tick decides on the `ST` that they leave. -/
theorem ticksCountTheTimersDown : Obligations.TicksCountTheTimersDown := by
  intro k s
  obtain ⟨d, e, hticks, hd, he⟩ := ticks_spec k s
  rw [hticks, tick_snd_iff, withTimers_st]
  exact ⟨hd, he, keepsAllBut_withTimers s d e, rfl, by omega⟩

/-! ## Steps that transfer no timer (R210, 70_reset_and_hazards.md R247) -/

/-- The three timer transfers (45_input_timers.md R183 to R185). -/
def TransfersTimer (i : Instr) : Prop :=
  match i with
  | .ldVxDT _ | .ldDTVx _ | .ldSTVx _ => True
  | _ => False

section
variable {s t : State} (d e : Byte)

theorem attempt_withTimers {α : Type} {c : Except Report α} {k k' : α → StepResult}
    (hk : ∀ a u, k a = .next u → k' a = .next (u.withTimers d e)) (h : attempt s c k = .next t) :
    attempt (s.withTimers d e) c k' = .next (t.withTimers d e) := by
  cases c with
  | error r => rw [eq_of_next h]; rfl
  | ok a => exact hk a t h

theorem skipIf_withTimers (s : State) (c : Bool) : (s.withTimers d e).skipIf c = (s.skipIf c).withTimers d e := by
  cases c <;> rfl

theorem loadRange_withTimers (s : State) (a : Nat) (x : Reg) :
    (s.withTimers d e).loadRange a x = (s.loadRange a x).withTimers d e :=
  List.foldl_hom (State.withTimers · d e) fun _ _ => rfl

/-- An instruction that transfers no timer does the same whatever the timers hold, and leaves them. -/
theorem exec_withTimers {i : Instr} (hi : ¬ TransfersTimer i) (h : exec i s = .next t) :
    exec i (s.withTimers d e) = .next (t.withTimers d e) := by
  cases i with
  | ldVxDT | ldDTVx | ldSTVx => exact absurd trivial hi
  | ret =>
    rcases exec_ret_cases h with ⟨hempty, rfl⟩ | ⟨hpos, rfl⟩
    · exact exec_ret_of_empty (s := s.withTimers d e) hempty
    · exact exec_ret_of_pos (s := s.withTimers d e) hpos
  | call a =>
    rcases exec_call_cases h with ⟨hfull, rfl⟩ | ⟨hlt, rfl⟩
    · exact exec_call_of_full a (s := s.withTimers d e) hfull
    · exact exec_call_of_lt a (s := s.withTimers d e) hlt
  | seByte | sneByte | seReg | sneReg => cases h; exact congrArg _ (skipIf_withTimers d e s _)
  | skp x | sknp x =>
    refine attempt_withTimers d e (fun k u hu => ?_) h
    rw [eq_of_next hu, ← skipIf_withTimers]
    rfl
  | ldVxK x =>
    rcases exec_ldVxK_cases h with ⟨k, hk, rfl⟩ | ⟨hk, rfl⟩
    · obtain ⟨hlt, hdown, hlow⟩ := firstPressed_some.1 hk
      exact exec_ldVxK_of_lowest x (s := s.withTimers d e) (k := ⟨k, hlt⟩) hdown hlow
    · exact exec_ldVxK_of_none x (s := s.withTimers d e) (firstPressed_none.1 hk)
  | drw | ldB | dumpRegs =>
    refine attempt_withTimers d e (fun _ u hu => ?_) h
    rw [eq_of_next hu]
    rfl
  | loadRegs x =>
    refine attempt_withTimers d e (fun _ u hu => ?_) h
    rw [eq_of_next hu, ← loadRange_withTimers]
    rfl
  | cls | jp | jpV0 | ldByte | addByte | ldReg | orReg | andReg | xorReg | addReg | sub | shr | subn | shl
  | rnd | ldI | addI | ldF => cases h; rfl

theorem step_withTimers (hi : ∀ i, decode s.fetchWord = some i → ¬ TransfersTimer i) (h : step s = .next t) :
    step (s.withTimers d e) = .next (t.withTimers d e) := by
  rcases step_cases h with ⟨hp, rfl⟩ | ⟨hp, hd, rfl⟩ | ⟨hp, i, hd, ht⟩
  · exact step_fetch_fails (s := s.withTimers d e) hp
  · exact (step_fetch_succeeds (s := s.withTimers d e) hp).trans (runWord_of_invalid hd _)
  · exact (step_of_decode (s := s.withTimers d e) hp hd).trans (exec_withTimers d e (hi i hd) ht)

end

/-- Settles O50: the step leaves both timers, and does the same from the ticked ones. -/
theorem ticksCommuteWithStepsThatTouchNoTimer : Obligations.TicksCommuteWithStepsThatTouchNoTimer := by
  intro s t h hdecode
  have hi : ∀ i, decode s.fetchWord = some i → ¬ TransfersTimer i := by
    intro i hd ht
    cases i with
    | ldVxDT x => exact (hdecode x).1 hd
    | ldDTVx x => exact (hdecode x).2.1 hd
    | ldSTVx x => exact (hdecode x).2.2 hd
    | _ => exact ht
  obtain ⟨hdt, hst, -⟩ := stepNeverTicksATimer s t h
  replace hdt : t.dt = s.dt := hdt.resolve_right fun ⟨x, hd, _⟩ => (hdecode x).2.1 hd
  replace hst : t.st = s.st := hst.resolve_right fun ⟨x, hd, _⟩ => (hdecode x).2.2 hd
  rw [tick_fst s, tick_fst t, hdt, hst]
  exact step_withTimers _ _ hi h

end Sys2Proof.Machine
end

section
/-! SUPPORT. How a load answers for each length of its bytes, and what a reset leaves of the constructed state, and from
these the statements about the host's load and reset (70_reset_and_hazards.md). -/

namespace Sys2Proof.Machine

/-! ## Loading a program (R242, R243) -/

theorem load_of_empty {bytes : List Byte} (h : bytes.length = 0) (s : State) : load bytes s = (s, .loadEmpty) :=
  if_pos h

theorem load_of_tooLarge {bytes : List Byte} (h : Config.progMax < bytes.length) (s : State) :
    load bytes s = (s, .loadTooLarge bytes.length) := by
  rw [load, if_neg (Nat.ne_zero_of_lt h), if_pos h]

theorem load_of_fits {bytes : List Byte} (hpos : 0 < bytes.length) (hmax : bytes.length ≤ Config.progMax) (s : State) :
    load bytes s = ({ s with mem := s.mem.writeBytes Config.progBase bytes }, .ok) := by
  rw [load, if_neg hpos.ne', if_neg hmax.not_gt]

/-- Settles O51: the longest program ends at the last cell of memory, so no byte of it falls outside the space. -/
theorem loadPlacesTheWholeProgram : Obligations.LoadPlacesTheWholeProgram := by
  intro bytes s hpos hmax
  have hspace : Config.progBase + bytes.length ≤ Config.memAddrMax + 1 := Nat.add_le_add_left hmax Config.progBase
  rw [load_of_fits hpos hmax]
  exact ⟨rfl, fun b hb => read_writeBytes_inside s.mem _ bytes b hb hspace,
    fun _ ha => read_writeBytes_outside s.mem _ bytes ha, keepsAllBut_withMem s _⟩

/-- Settles O52, by the answer of a load for each of the two lengths that it refuses. -/
theorem refusedLoadsChangeNothing : Obligations.RefusedLoadsChangeNothing :=
  fun _ s => ⟨fun h => load_of_empty h s, fun h => load_of_tooLarge h s⟩

/-! ## Reset (R240) -/

theorem keepsAllBut_withKeyDraws (s : State) (k : Vector Bool 16) (n : Nat) :
    keepsAllBut [.key, .draws] s { s with key := k, draws := n } := by
  intro p hp
  cases p with
  | key | draws => exact absurd hp (by decide)
  | stack => exact ⟨rfl, rfl⟩
  | mem | regs => exact fun _ => rfl
  | i | pc | dt | st | fb | report => rfl

/-- Settles O54: a reset is the constructed state with the keypad and the count of draws put back (decision D19). -/
theorem hostResetKeepsTheKeypad : Obligations.HostResetKeepsTheKeypad :=
  fun s => ⟨rfl, rfl, keepsAllBut_withKeyDraws State.reset s.key s.draws, rfl, rfl⟩

end Sys2Proof.Machine
end
